-- ==== Sys2Proof/Word.lean ====
section
/-! DEFINITION. The value types of the core, as wide as the spec makes them (00_scope.md rules R5 and R8,
10_state.md rule R13). Everything is unsigned; `x.toNat` is the unsigned value of `x`. -/

namespace Sys2Proof

/-- A memory byte, a general register, a timer or an immediate byte `kk`. -/
abbrev Byte := BitVec 8

/-- An instruction word, the index register, the program counter or a return address. -/
abbrev Word := BitVec 16

/-- A 12-bit address field `nnn` (30_encoding.md rule R40). -/
abbrev Addr12 := BitVec 12

/-- The index of a general register, 0 to 15 (10_state.md rule R14). -/
abbrev Reg := Fin 16

/-- One sample of the keypad: bit `k` is set when logical key `k` is pressed (00_scope.md rule R6). -/
abbrev KeySample := BitVec 16

/-- The register the core uses as the flag register, `VF` (10_state.md rule R15). -/
abbrev VF : Reg := 15

end Sys2Proof
end

