-- ==== Sys2Proof/Config.lean ====
section
/-! DEFINITION. The implementation parameters of 00_scope.md rule R5: what the spec lets a model take as a
parameter, the value this hardware takes for each, the inputs of the host (rules R6 and R7), and the two
free values (a random byte, and an input of a host of which nothing is known). -/

namespace Sys2Proof

/-- SYS_MODE: what 0nnn SYS does (41_control_flow.md rule R61, decision D2). -/
inductive SysMode where
  | halt
  | nop
  deriving DecidableEq, Repr

/-- SHIFT_SOURCE: the register 8xy6 and 8xyE shift (43_alu.md rules R78 and R80, decision D3). -/
inductive ShiftSource where
  | vx
  | vy
  deriving DecidableEq, Repr

/-- VF_ORDER: which write of a flag-writing instruction comes last (43_alu.md rule R71, decision D4). -/
inductive VfOrder where
  | flagLast
  | resultLast
  deriving DecidableEq, Repr

/-- KEY_RANGE_POLICY: what a key number of 16 or more does (46_keypad.md rule R89, decision D14). -/
inductive KeyRangePolicy where
  | fault
  | lowNibble
  | notPressed
  deriving DecidableEq, Repr

/-- TIMERS_DURING_WAIT: whether ticks are enabled while Fx0A waits (60_exceptions.md rule R109, decision D16). -/
inductive WaitTimers where
  | frozen
  | ticking
  deriving DecidableEq, Repr

/-- The parameters of 00_scope.md rule R5 that a model may take at another value. -/
structure Params where
  loadBase         : Word
  fontBase         : Nat
  font             : List Byte
  sysMode          : SysMode
  shiftSource      : ShiftSource
  vfOrder          : VfOrder
  logicVfReset     : Bool
  blockIIncrement  : Bool
  drawStartWrap    : Bool
  keyRangePolicy   : KeyRangePolicy
  timersDuringWait : WaitTimers
  deriving DecidableEq, Repr

/-- MEM_SIZE: the bytes of the address space. -/
def Config.memSize : Nat := 4096

/-- STACK_DEPTH: the entries of the call stack. -/
def Config.stackDepth : Nat := 16

/-- FB_W: the columns of the framebuffer. -/
def Config.fbWidth : Nat := 64

/-- FB_H: the rows of the framebuffer. -/
def Config.fbHeight : Nat := 32

/-- GLYPH_BYTES: the bytes of one font glyph. -/
def Config.glyphBytes : Nat := 5

/-- One interval of TICK_HZ = 60, that is 1/60 s, in the time unit of the model: 1/60 of a microsecond.
DESIGN CHOICE (log entry 4): the spec gives times no unit, and this one makes 1/60 s and 1 µs whole numbers. -/
def Config.tickInterval : Nat := 1000000

/-- FONT: the 80 glyph bytes, digit 0 first (10_state.md rule R25). -/
def Config.font : List Byte :=
  [0xF0, 0x90, 0x90, 0x90, 0xF0] ++ [0x20, 0x60, 0x20, 0x20, 0x70] ++
  [0xF0, 0x10, 0xF0, 0x80, 0xF0] ++ [0xF0, 0x10, 0xF0, 0x10, 0xF0] ++
  [0x90, 0x90, 0xF0, 0x10, 0x10] ++ [0xF0, 0x80, 0xF0, 0x10, 0xF0] ++
  [0xF0, 0x80, 0xF0, 0x90, 0xF0] ++ [0xF0, 0x10, 0x20, 0x40, 0x40] ++
  [0xF0, 0x90, 0xF0, 0x90, 0xF0] ++ [0xF0, 0x90, 0xF0, 0x10, 0xF0] ++
  [0xF0, 0x90, 0xF0, 0x90, 0x90] ++ [0xE0, 0x90, 0xE0, 0x90, 0xE0] ++
  [0xF0, 0x80, 0x80, 0x80, 0xF0] ++ [0xE0, 0x90, 0x90, 0x90, 0xE0] ++
  [0xF0, 0x80, 0xF0, 0x80, 0xF0] ++ [0xF0, 0x80, 0xF0, 0x80, 0x80]

/-- The value this hardware takes for each parameter: the "value" column of 00_scope.md rule R5. -/
def Config.params : Params where
  loadBase         := 0x200
  fontBase         := 0
  font             := Config.font
  sysMode          := .halt
  shiftSource      := .vx
  vfOrder          := .flagLast
  logicVfReset     := false
  blockIIncrement  := false
  drawStartWrap    := false
  keyRangePolicy   := .fault
  timersDuringWait := .frozen

/-- RNG: the byte the `n`-th draw of Cxkk gives where the host's script supplies none (44_immediate.md rule
R84: "a draw: any byte"; decision D30). A FREE VALUE: it has no body, so nothing can be proved of it. -/
opaque Config.freeRandom : Nat → Byte

/-! ### The host's inputs -/

/-- One input of the host (00_scope.md rules R6 and R7, 60_exceptions.md rule R115). -/
inductive Input where
  /-- The core may take its instruction or poll step, with this key sample; `rnd` is the random byte of the
  step, `none` where the script leaves it free. -/
  | cycle (keys : KeySample) (rnd : Option Byte)
  /-- One 1/60 s interval has elapsed (rule R109). -/
  | tick
  /-- The timebase of rule R110 runs, at this wall-clock time. -/
  | clock (now : Nat)
  /-- A reset request (rule R121), at this wall-clock time. -/
  | reset (now : Nat)
  /-- The host-level exit signal (rule R59). -/
  | exit
  deriving DecidableEq, Repr, Inhabited

/-- The `n`-th input of a host of which nothing is known (40_cycle_driver.md rule R56: "A run is any sequence of
enabled steps"). A FREE VALUE: it has no body, so nothing can be proved of it (log entry 15). -/
opaque Config.freeInput : Nat → Input

end Sys2Proof
end

