-- ==== Sys2Proof/Syntax.lean ====
section
/-! DEFINITION. The 35 instructions (30_encoding.md rule R43), one constructor per row of
spec/opcode_table.json, in the table's order, with the operand fields its row has (rule R40). -/

namespace Sys2Proof

/-- An instruction. The constructor names follow the tags of 30_encoding.md rule R44. -/
inductive Instr where
  /-- 00E0 CLS -/
  | cls
  /-- 00EE RET -/
  | ret
  /-- 0nnn SYS nnn -/
  | sys (nnn : Addr12)
  /-- 1nnn JP nnn -/
  | jp (nnn : Addr12)
  /-- 2nnn CALL nnn -/
  | call (nnn : Addr12)
  /-- 3xkk SE Vx, kk -/
  | seImm (x : Reg) (kk : Byte)
  /-- 4xkk SNE Vx, kk -/
  | sneImm (x : Reg) (kk : Byte)
  /-- 5xy0 SE Vx, Vy -/
  | seReg (x y : Reg)
  /-- 6xkk LD Vx, kk -/
  | ldImm (x : Reg) (kk : Byte)
  /-- 7xkk ADD Vx, kk -/
  | addImm (x : Reg) (kk : Byte)
  /-- 8xy0 LD Vx, Vy -/
  | ldReg (x y : Reg)
  /-- 8xy1 OR Vx, Vy -/
  | orReg (x y : Reg)
  /-- 8xy2 AND Vx, Vy -/
  | andReg (x y : Reg)
  /-- 8xy3 XOR Vx, Vy -/
  | xorReg (x y : Reg)
  /-- 8xy4 ADD Vx, Vy -/
  | addReg (x y : Reg)
  /-- 8xy5 SUB Vx, Vy -/
  | sub (x y : Reg)
  /-- 8xy6 SHR Vx, Vy -/
  | shr (x y : Reg)
  /-- 8xy7 SUBN Vx, Vy -/
  | subn (x y : Reg)
  /-- 8xyE SHL Vx, Vy -/
  | shl (x y : Reg)
  /-- 9xy0 SNE Vx, Vy -/
  | sneReg (x y : Reg)
  /-- Annn LD I, nnn -/
  | ldI (nnn : Addr12)
  /-- Bnnn JP V0, nnn -/
  | jpV0 (nnn : Addr12)
  /-- Cxkk RND Vx, kk -/
  | rnd (x : Reg) (kk : Byte)
  /-- Dxyn DRW Vx, Vy, n -/
  | drw (x y : Reg) (n : Fin 16)
  /-- Ex9E SKP Vx -/
  | skp (x : Reg)
  /-- ExA1 SKNP Vx -/
  | sknp (x : Reg)
  /-- Fx07 LD Vx, DT -/
  | ldVDt (x : Reg)
  /-- Fx0A LD Vx, K -/
  | ldVK (x : Reg)
  /-- Fx15 LD DT, Vx -/
  | ldDtV (x : Reg)
  /-- Fx18 LD ST, Vx -/
  | ldStV (x : Reg)
  /-- Fx1E ADD I, Vx -/
  | addI (x : Reg)
  /-- Fx29 LD F, Vx -/
  | ldF (x : Reg)
  /-- Fx33 LD B, Vx -/
  | ldB (x : Reg)
  /-- Fx55 LD [I], Vx -/
  | stRegs (x : Reg)
  /-- Fx65 LD Vx, [I] -/
  | ldRegs (x : Reg)
  deriving DecidableEq, Repr

end Sys2Proof
end

