-- ==== Sys2Proof/WellFormed.lean ====
section
/-! DEFINITION. Which terms of `Instr` some instruction word stands for. The operand types already bound every
field, so one check is left: SYS takes "every other word of group 0" (30_encoding.md rule R43). -/

namespace Sys2Proof

/-- The words 00E0 and 00EE are CLS and RET, "decoded first", so no word is SYS 0x0E0 or SYS 0x0EE
(30_encoding.md rules R43 and R44). -/
def sysFieldOk (nnn : Addr12) : Bool := nnn != 0x0E0 && nnn != 0x0EE

/-- `i` is what some instruction word decodes to. -/
def Instr.wf : Instr → Bool
  | .sys nnn => sysFieldOk nnn
  | .cls | .ret | .jp _ | .call _ | .seImm _ _ | .sneImm _ _ | .seReg _ _ | .ldImm _ _ | .addImm _ _
  | .ldReg _ _ | .orReg _ _ | .andReg _ _ | .xorReg _ _ | .addReg _ _ | .sub _ _ | .shr _ _ | .subn _ _
  | .shl _ _ | .sneReg _ _ | .ldI _ | .jpV0 _ | .rnd _ _ | .drw _ _ _ | .skp _ | .sknp _ | .ldVDt _
  | .ldVK _ | .ldDtV _ | .ldStV _ | .addI _ | .ldF _ | .ldB _ | .stRegs _ | .ldRegs _ => true

end Sys2Proof
end

