-- ==== Sys2Proof/Decode.lean ====
section
/-! DEFINITION. The decoder, total over all 65,536 words and over any bytes, rejecting by name (30_encoding.md
rules R39 to R45); after it the encoder, written from the same table; and the table itself as data (rule R43). -/

namespace Sys2Proof

/-! ### Operand fields (rule R40) -/

/-- The group `w[15:12]`. -/
def fieldGroup (w : Word) : BitVec 4 := w.extractLsb' 12 4

/-- `x = w[11:8]`, the first register index. -/
def fieldX (w : Word) : Reg := (w.extractLsb' 8 4).toFin

/-- `y = w[7:4]`, the second register index. -/
def fieldY (w : Word) : Reg := (w.extractLsb' 4 4).toFin

/-- `n = w[3:0]`, the nibble: a sprite's row count, or a function selector. -/
def fieldN (w : Word) : Fin 16 := (w.extractLsb' 0 4).toFin

/-- `kk = w[7:0]`, the immediate byte, or a function selector. -/
def fieldKK (w : Word) : Byte := w.extractLsb' 0 8

/-- `nnn = w[11:0]`, the 12-bit address. -/
def fieldNNN (w : Word) : Addr12 := w.extractLsb' 0 12

/-! ### The decoder (rule R44) -/

/-- Why bytes are no instruction: too few of them, or a word of one of the illegal classes of rule R45. -/
inductive Reject where
  /-- Fewer than the 2 bytes of an instruction word (rule R39). -/
  | truncated
  /-- 5xyn with n ≠ 0. -/
  | group5
  /-- 8xyn with n in 8 to D, or F. -/
  | group8
  /-- 9xyn with n ≠ 0. -/
  | group9
  /-- Exkk with kk neither 9E nor A1. -/
  | groupE
  /-- Fxkk with kk none of the nine F-group selectors. -/
  | groupF
  deriving DecidableEq, Repr

/-- Group 0: CLS and RET first, then SYS. -/
def decodeGroup0 (w : Word) : Except Reject Instr :=
  if w = 0x00E0 then .ok .cls
  else if w = 0x00EE then .ok .ret
  else .ok (.sys (fieldNNN w))

/-- Group 8, selected by the low nibble. -/
def decodeGroup8 (w : Word) : Except Reject Instr :=
  let x := fieldX w
  let y := fieldY w
  match (fieldN w).val with
  | 0x0 => .ok (.ldReg x y)
  | 0x1 => .ok (.orReg x y)
  | 0x2 => .ok (.andReg x y)
  | 0x3 => .ok (.xorReg x y)
  | 0x4 => .ok (.addReg x y)
  | 0x5 => .ok (.sub x y)
  | 0x6 => .ok (.shr x y)
  | 0x7 => .ok (.subn x y)
  | 0xE => .ok (.shl x y)
  | _   => .error .group8

/-- Group E, selected by the low byte. -/
def decodeGroupE (w : Word) : Except Reject Instr :=
  match (fieldKK w).toNat with
  | 0x9E => .ok (.skp (fieldX w))
  | 0xA1 => .ok (.sknp (fieldX w))
  | _    => .error .groupE

/-- Group F, selected by the low byte. -/
def decodeGroupF (w : Word) : Except Reject Instr :=
  let x := fieldX w
  match (fieldKK w).toNat with
  | 0x07 => .ok (.ldVDt x)
  | 0x0A => .ok (.ldVK x)
  | 0x15 => .ok (.ldDtV x)
  | 0x18 => .ok (.ldStV x)
  | 0x1E => .ok (.addI x)
  | 0x29 => .ok (.ldF x)
  | 0x33 => .ok (.ldB x)
  | 0x55 => .ok (.stRegs x)
  | 0x65 => .ok (.ldRegs x)
  | _    => .error .groupF

/-- The decoder of rule R44: a pure function of the word. -/
def decodeWord (w : Word) : Except Reject Instr :=
  match (fieldGroup w).toNat with
  | 0x0 => decodeGroup0 w
  | 0x1 => .ok (.jp (fieldNNN w))
  | 0x2 => .ok (.call (fieldNNN w))
  | 0x3 => .ok (.seImm (fieldX w) (fieldKK w))
  | 0x4 => .ok (.sneImm (fieldX w) (fieldKK w))
  | 0x5 => if fieldN w = 0 then .ok (.seReg (fieldX w) (fieldY w)) else .error .group5
  | 0x6 => .ok (.ldImm (fieldX w) (fieldKK w))
  | 0x7 => .ok (.addImm (fieldX w) (fieldKK w))
  | 0x8 => decodeGroup8 w
  | 0x9 => if fieldN w = 0 then .ok (.sneReg (fieldX w) (fieldY w)) else .error .group9
  | 0xA => .ok (.ldI (fieldNNN w))
  | 0xB => .ok (.jpV0 (fieldNNN w))
  | 0xC => .ok (.rnd (fieldX w) (fieldKK w))
  | 0xD => .ok (.drw (fieldX w) (fieldY w) (fieldN w))
  | 0xE => decodeGroupE w
  | _   => decodeGroupF w          -- 0xF, the last value of a nibble

/-! ### Words and bytes (20_memory.md rule R29) -/

/-- The word of two bytes, the first (at the lower address) the high one. -/
def wordOfBytes (hi lo : Byte) : Word := hi ++ lo

/-- The high byte of a word, stored at the lower address. -/
def highByte (w : Word) : Byte := w.extractLsb' 8 8

/-- The low byte of a word, stored at the higher address. -/
def lowByte (w : Word) : Byte := w.extractLsb' 0 8

/-- A word as memory holds it. -/
def bytesOfWord (w : Word) : List Byte := [highByte w, lowByte w]

/-- The decoder on any bytes: the instruction the first word stands for, and the bytes after it. -/
def decode : List Byte → Except Reject (Instr × List Byte)
  | hi :: lo :: rest =>
    match decodeWord (wordOfBytes hi lo) with
    | .ok i    => .ok (i, rest)
    | .error e => .error e
  | [] | [_] => .error .truncated

/-! ### The encoder (rules R40 and R43) -/

/-- The word `gxyn`. -/
def wordXYN (g x y n : Nat) : Word := BitVec.ofNat 16 (g * 4096 + x * 256 + y * 16 + n)

/-- The word `gxkk`. -/
def wordXKK (g x kk : Nat) : Word := BitVec.ofNat 16 (g * 4096 + x * 256 + kk)

/-- The word `gnnn`. -/
def wordNNN (g nnn : Nat) : Word := BitVec.ofNat 16 (g * 4096 + nnn)

/-- The word of an instruction. -/
def encode : Instr → Word
  | .cls          => 0x00E0
  | .ret          => 0x00EE
  | .sys nnn      => wordNNN 0x0 nnn.toNat
  | .jp nnn       => wordNNN 0x1 nnn.toNat
  | .call nnn     => wordNNN 0x2 nnn.toNat
  | .seImm x kk   => wordXKK 0x3 x kk.toNat
  | .sneImm x kk  => wordXKK 0x4 x kk.toNat
  | .seReg x y    => wordXYN 0x5 x y 0x0
  | .ldImm x kk   => wordXKK 0x6 x kk.toNat
  | .addImm x kk  => wordXKK 0x7 x kk.toNat
  | .ldReg x y    => wordXYN 0x8 x y 0x0
  | .orReg x y    => wordXYN 0x8 x y 0x1
  | .andReg x y   => wordXYN 0x8 x y 0x2
  | .xorReg x y   => wordXYN 0x8 x y 0x3
  | .addReg x y   => wordXYN 0x8 x y 0x4
  | .sub x y      => wordXYN 0x8 x y 0x5
  | .shr x y      => wordXYN 0x8 x y 0x6
  | .subn x y     => wordXYN 0x8 x y 0x7
  | .shl x y      => wordXYN 0x8 x y 0xE
  | .sneReg x y   => wordXYN 0x9 x y 0x0
  | .ldI nnn      => wordNNN 0xA nnn.toNat
  | .jpV0 nnn     => wordNNN 0xB nnn.toNat
  | .rnd x kk     => wordXKK 0xC x kk.toNat
  | .drw x y n    => wordXYN 0xD x y n
  | .skp x        => wordXKK 0xE x 0x9E
  | .sknp x       => wordXKK 0xE x 0xA1
  | .ldVDt x      => wordXKK 0xF x 0x07
  | .ldVK x       => wordXKK 0xF x 0x0A
  | .ldDtV x      => wordXKK 0xF x 0x15
  | .ldStV x      => wordXKK 0xF x 0x18
  | .addI x       => wordXKK 0xF x 0x1E
  | .ldF x        => wordXKK 0xF x 0x29
  | .ldB x        => wordXKK 0xF x 0x33
  | .stRegs x     => wordXKK 0xF x 0x55
  | .ldRegs x     => wordXKK 0xF x 0x65

/-! ### The opcode table as data (rule R43) -/

/-- One row of the table: `(w & mask) == pattern`, less the words the row leaves to others. -/
structure OpRow where
  mnemonic : String
  pattern  : Word
  mask     : Word
  excludes : List Word := []
  deriving DecidableEq, Repr

/-- The row takes the word `w`. -/
def OpRow.accepts (r : OpRow) (w : Word) : Bool := (w &&& r.mask) == r.pattern && !r.excludes.contains w

/-- The row an instruction belongs to. -/
def rowOf : Instr → OpRow
  | .cls        => ⟨"CLS", 0x00E0, 0xFFFF, []⟩
  | .ret        => ⟨"RET", 0x00EE, 0xFFFF, []⟩
  | .sys _      => ⟨"SYS_nnn", 0x0000, 0xF000, [0x00E0, 0x00EE]⟩
  | .jp _       => ⟨"JP_nnn", 0x1000, 0xF000, []⟩
  | .call _     => ⟨"CALL_nnn", 0x2000, 0xF000, []⟩
  | .seImm _ _  => ⟨"SE_Vx__kk", 0x3000, 0xF000, []⟩
  | .sneImm _ _ => ⟨"SNE_Vx__kk", 0x4000, 0xF000, []⟩
  | .seReg _ _  => ⟨"SE_Vx__Vy", 0x5000, 0xF00F, []⟩
  | .ldImm _ _  => ⟨"LD_Vx__kk", 0x6000, 0xF000, []⟩
  | .addImm _ _ => ⟨"ADD_Vx__kk", 0x7000, 0xF000, []⟩
  | .ldReg _ _  => ⟨"LD_Vx__Vy", 0x8000, 0xF00F, []⟩
  | .orReg _ _  => ⟨"OR_Vx__Vy", 0x8001, 0xF00F, []⟩
  | .andReg _ _ => ⟨"AND_Vx__Vy", 0x8002, 0xF00F, []⟩
  | .xorReg _ _ => ⟨"XOR_Vx__Vy", 0x8003, 0xF00F, []⟩
  | .addReg _ _ => ⟨"ADD_Vx__Vy", 0x8004, 0xF00F, []⟩
  | .sub _ _    => ⟨"SUB_Vx__Vy", 0x8005, 0xF00F, []⟩
  | .shr _ _    => ⟨"SHR_Vx__Vy", 0x8006, 0xF00F, []⟩
  | .subn _ _   => ⟨"SUBN_Vx__Vy", 0x8007, 0xF00F, []⟩
  | .shl _ _    => ⟨"SHL_Vx__Vy", 0x800E, 0xF00F, []⟩
  | .sneReg _ _ => ⟨"SNE_Vx__Vy", 0x9000, 0xF00F, []⟩
  | .ldI _      => ⟨"LD_I__nnn", 0xA000, 0xF000, []⟩
  | .jpV0 _     => ⟨"JP_V0__nnn", 0xB000, 0xF000, []⟩
  | .rnd _ _    => ⟨"RND_Vx__kk", 0xC000, 0xF000, []⟩
  | .drw _ _ _  => ⟨"DRW_Vx__Vy__n", 0xD000, 0xF000, []⟩
  | .skp _      => ⟨"SKP_Vx", 0xE09E, 0xF0FF, []⟩
  | .sknp _     => ⟨"SKNP_Vx", 0xE0A1, 0xF0FF, []⟩
  | .ldVDt _    => ⟨"LD_Vx__DT", 0xF007, 0xF0FF, []⟩
  | .ldVK _     => ⟨"LD_Vx__K", 0xF00A, 0xF0FF, []⟩
  | .ldDtV _    => ⟨"LD_DT__Vx", 0xF015, 0xF0FF, []⟩
  | .ldStV _    => ⟨"LD_ST__Vx", 0xF018, 0xF0FF, []⟩
  | .addI _     => ⟨"ADD_I__Vx", 0xF01E, 0xF0FF, []⟩
  | .ldF _      => ⟨"LD_F__Vx", 0xF029, 0xF0FF, []⟩
  | .ldB _      => ⟨"LD_B__Vx", 0xF033, 0xF0FF, []⟩
  | .stRegs _   => ⟨"LD__I___Vx", 0xF055, 0xF0FF, []⟩
  | .ldRegs _   => ⟨"LD_Vx___I", 0xF065, 0xF0FF, []⟩

/-- The 35 rows, in the table's order. -/
def opcodeRows : List OpRow :=
  [.cls, .ret, .sys 0, .jp 0, .call 0, .seImm 0 0, .sneImm 0 0, .seReg 0 0, .ldImm 0 0, .addImm 0 0].map rowOf ++
  [.ldReg 0 0, .orReg 0 0, .andReg 0 0, .xorReg 0 0, .addReg 0 0, .sub 0 0, .shr 0 0, .subn 0 0, .shl 0 0].map rowOf ++
  [.sneReg 0 0, .ldI 0, .jpV0 0, .rnd 0 0, .drw 0 0 0, .skp 0, .sknp 0].map rowOf ++
  [.ldVDt 0, .ldVK 0, .ldDtV 0, .ldStV 0, .addI 0, .ldF 0, .ldB 0, .stRegs 0, .ldRegs 0].map rowOf

/-! ### The host's reading of a table word -/

/-- The instruction word of a table row's number: the bits above `nbits` are 0, and one word is all an
instruction has (rule R39). -/
def tableWord (nbits w : Nat) : Word := BitVec.ofNat 16 (w % 2 ^ nbits)

/-- What the decoder reads from a table word, laid out in bytes as memory holds it. -/
def decodeTableWord (nbits w : Nat) : Option Instr :=
  match decode (bytesOfWord (tableWord nbits w)) with
  | .ok (i, _) => some i
  | .error _   => none

end Sys2Proof
end

