-- ==== Sys2Proof/Machine/State.lean ====
section
/-! DEFINITION. The architectural state of the core (10_state.md rule R13), the host's side of the interface
(00_scope.md rules R6 and R7) as plain data beside it, and the state after power-on and reset. -/

namespace Sys2Proof.Machine

/-- The faults of 60_exceptions.md rule R102. Each but the last halts the core: it is recorded in the mode. -/
inductive FaultKind where
  /-- An illegal instruction word (rule R45). -/
  | decodeError
  /-- CALL with 16 entries on the stack (rule R63). -/
  | stackOverflow
  /-- RET with an empty stack (rule R64). -/
  | stackUnderflow
  /-- An access through I outside the address space (rule R32). -/
  | memoryRangeIndex
  /-- An instruction fetch outside the address space (rule R52). -/
  | memoryRangeFetch
  /-- SYS with SYS_MODE = Halt (rule R61). -/
  | unsupportedSys
  /-- SKP or SKNP on a key number above 15 with KEY_RANGE_POLICY = Fault (rule R89). -/
  | keyRangeError
  /-- A program image that does not fit (rule R119); raised by the load, never by an instruction. -/
  | loadError
  deriving DecidableEq, Repr

/-- The code rule R102 numbers a fault with. -/
def FaultKind.code : FaultKind → Nat
  | .decodeError      => 1
  | .stackOverflow    => 2
  | .stackUnderflow   => 3
  | .memoryRangeIndex => 4
  | .memoryRangeFetch => 5
  | .unsupportedSys   => 6
  | .keyRangeError    => 7
  | .loadError        => 8

/-- The `detail` of a diagnostic: "the address, stack depth or key number of the fault" (rule R103). -/
inductive Detail where
  | none
  | address (a : Word)
  | depth (sp : Nat)
  | key (v : Byte)
  deriving DecidableEq, Repr

/-- The halting diagnostic (60_exceptions.md rule R103). -/
structure Diag where
  kind   : FaultKind
  pc     : Word
  /-- Absent for a fetch fault: "no word". -/
  word   : Option Word
  detail : Detail
  deriving DecidableEq, Repr

/-- The run mode of the Cycle Driver (10_state.md rule R23). -/
inductive Mode where
  | running
  /-- Fx0A is pending: its destination, and the key sample of the previous poll. -/
  | waiting (x : Reg) (prev : KeySample)
  | halted (d : Diag)
  deriving DecidableEq, Repr

/-- What the host does once its script is at its end, so that a run without end can be any sequence of enabled steps
(40_cycle_driver.md rules R50, R56 and R57). DESIGN CHOICE, log entry 15. -/
inductive HostPlan where
  /-- Nothing more: no tick comes, and the core goes on by itself with the last key sample and a free random byte. -/
  | coreOnly
  /-- These inputs, over and over. With ticks alone among them the instruction steps have stopped for ever. -/
  | repeats (first : Input) (rest : List Input)
  /-- Any inputs, one after the other: the free value `Config.freeInput`. -/
  | free
  deriving DecidableEq, Repr

/-- Memory: the bytes that differ from what power-on leaves, by rising address (see `Memory.wf`). -/
abbrev Memory := List Host.Cell

/-- The framebuffer, `fb[x][y]` with column `x` and row `y`, `true` when lit (10_state.md rule R22). -/
abbrev Framebuffer := Vector (Vector Bool 32) 64

/-- The state: the record of 10_state.md rule R13, then the model's own fields for the host's inputs. -/
structure State where
  /-- The general registers V0 to VF (rule R14). -/
  V     : Vector Byte 16
  /-- The index register (rule R16). -/
  I     : Word
  /-- The program counter (rule R17). -/
  pc    : Word
  /-- The call stack's entries (rule R18). -/
  stack : Vector Word 16
  /-- How many of them are live, 0 to 16 (rule R19). -/
  SP    : Fin 17
  /-- The delay timer (rule R20). -/
  DT    : Byte
  /-- The sound timer (rule R21). -/
  ST    : Byte
  /-- The framebuffer (rule R22). -/
  fb    : Framebuffer
  /-- The run mode (rule R23). -/
  mode  : Mode
  /-- The time of the last timer tick, in the unit of `Config.tickInterval` (60_exceptions.md rule R110). -/
  tLast : Nat
  /-- The address space (20_memory.md rule R27). -/
  mem   : Memory
  /-- The model's own: the key sample of the present step (rules R6 and R58). -/
  keys  : KeySample
  /-- The model's own: the random byte of the present step, `none` where it is free (rules R6 and R84). -/
  rnd   : Option Byte
  /-- The model's own: how many random bytes have been drawn; the argument of `Config.freeRandom`. -/
  draws : Nat
  /-- The model's own: the host's coming inputs, the next one first (rule R56). -/
  script : List Input
  /-- The model's own: what the host does once the script is at its end (rules R56 and R57). -/
  plan   : HostPlan
  /-- The model's own: how many free inputs have been taken; the argument of `Config.freeInput`. -/
  taken  : Nat
  deriving DecidableEq, Repr

/-- Why a step does not end in a next state. A fault of an instruction (rule R102) is NOT here: it halts the core,
which is a next state (rule R104). -/
inductive Fault where
  /-- Raised by `step` when the core is halted and no further input of the host comes: "In `Halted` only reset is
  enabled" (rules R50 and R105), so no step can be taken. Safe: the machine stands still there too. -/
  | halted (d : Diag)
  /-- Raised by `step` when the host's next input is its exit signal: the run ends with its current state (rule
  R59). Safe: no state follows. -/
  | hostExit
  /-- Raised by the program load on an image that does not fit: "No core state is created" (rule R119). Safe. -/
  | loadError (length : Nat)
  deriving DecidableEq, Repr

/-- Why the model gives a word no meaning. -/
inductive Refusal where
  /-- Raised by an arm of `exec` that has no meaning yet; no arm of this model does. Safe. -/
  | notModelled (mnemonic : String)
  deriving DecidableEq, Repr

/-- The core right after power-on with an empty image and reset (rules R26, R120 and R121): memory lists nothing,
so it holds the font and zeros. The fields after `mem` are the model's own (log entries 2, 3 and 15). -/
def State.reset : State where
  V      := Vector.replicate 16 0
  I      := 0
  pc     := Config.params.loadBase
  stack  := Vector.replicate 16 0
  SP     := 0
  DT     := 0
  ST     := 0
  fb     := Vector.replicate 64 (Vector.replicate 32 false)
  mode   := .running
  tLast  := 0
  mem    := []
  keys   := 0
  rnd    := none
  draws  := 0
  script := []
  plan   := .coreOnly
  taken  := 0

end Sys2Proof.Machine
end

