-- ==== Sys2Proof/Machine/Ops.lean ====
section
/-! DEFINITION. The named operations over memory, registers, stack and framebuffer that the meanings share
(00_scope.md rules R9 to R11), raising a fault (60_exceptions.md rules R102 to R104), and reset and power-on
(70_reset_and_hazards.md rules R119 to R121). -/

namespace Sys2Proof.Machine

/-! ### Memory (20_memory.md) -/

/-- What an address reads as that memory does not list: the font at FONT_BASE, 0 elsewhere (rules R25, R33 and
R120). -/
def initByte (a : Nat) : Byte :=
  if Config.params.fontBase ≤ a then Config.params.font.getD (a - Config.params.fontBase) 0 else 0

/-- The byte at an address. -/
def memRead : Memory → Nat → Byte
  | [], a => initByte a
  | (b, v) :: m, a => if a = b then v else memRead m a

/-- List a byte at its place, in place of any byte listed there. -/
def memInsert (a : Nat) (v : Byte) : Memory → Memory
  | [] => [(a, v)]
  | (b, w) :: m =>
    if a < b then (a, v) :: (b, w) :: m
    else if a = b then (a, v) :: m
    else (b, w) :: memInsert a v m

/-- List no byte at an address. -/
def memErase (a : Nat) : Memory → Memory
  | [] => []
  | (b, w) :: m => if a = b then m else (b, w) :: memErase a m

/-- `MemWrite(a, 1, v)` (rule R10). A byte that the address reads as anyway is not listed. -/
def memWrite (m : Memory) (a : Nat) (v : Byte) : Memory :=
  if v = initByte a then memErase a m else memInsert a v m

/-- Write bytes at rising addresses, the first one first. -/
def memWriteBlock (m : Memory) (a : Nat) : List Byte → Memory
  | [] => m
  | v :: vs => memWriteBlock (memWrite m a v) (a + 1) vs

/-- The `n` bytes at rising addresses. -/
def memReadBlock (m : Memory) (a : Nat) : Nat → List Byte
  | 0 => []
  | n + 1 => memRead m a :: memReadBlock m (a + 1) n

/-- The canonical form from an address on: addresses rise, are inside the address space, and no listed byte is
what its address reads as anyway. -/
def Memory.wfFrom (lo : Nat) : Memory → Bool
  | [] => true
  | (a, v) :: m => decide (lo ≤ a) && decide (a < Config.memSize) && decide (v ≠ initByte a) && Memory.wfFrom (a + 1) m

/-- The canonical form of memory. -/
def Memory.wf (m : Memory) : Bool := Memory.wfFrom 0 m

/-- The check of `CheckRange(addr, n, kind)`: `addr + n − 1 < MEM_SIZE`, the sum not truncated (rules R10 and
R32). -/
def inRange (addr : Word) (n : Nat) : Bool := decide (addr.toNat + n - 1 < Config.memSize)

/-! ### State access (rule R9) -/

/-- `V[i]`. -/
def State.getV (s : State) (i : Reg) : Byte := s.V[i]

/-- `V[i] <- v`. -/
def State.setV (s : State) (i : Reg) (v : Byte) : State := { s with V := s.V.set i v }

/-- Replace all general registers. -/
def State.setRegFile (s : State) (regs : Vector Byte 16) : State := { s with V := regs }

/-- `I <- a`. -/
def State.setI (s : State) (a : Word) : State := { s with I := a }

/-- `pc <- target`. -/
def State.setPc (s : State) (target : Word) : State := { s with pc := target }

/-- `advance(k)`: `pc <- trunc_16(pc + k)` (rule R11). -/
def State.advance (s : State) (k : Nat) : State := { s with pc := BitVec.ofNat 16 (s.pc.toNat + k) }

/-- `DT <- v`. -/
def State.setDT (s : State) (v : Byte) : State := { s with DT := v }

/-- `ST <- v`. -/
def State.setST (s : State) (v : Byte) : State := { s with ST := v }

/-- `mode <- m`. -/
def State.setMode (s : State) (m : Mode) : State := { s with mode := m }

/-- Replace the framebuffer. -/
def State.setFb (s : State) (fb : Framebuffer) : State := { s with fb := fb }

/-- Replace memory. -/
def State.setMem (s : State) (m : Memory) : State := { s with mem := m }

/-- The byte at an address of the state's memory. -/
def State.readByte (s : State) (a : Nat) : Byte := memRead s.mem a

/-! ### The call stack (10_state.md rules R18 and R19) -/

/-- `stack[SP] <- a; SP <- SP + 1`. CALL raises StackError before it where the stack is full. -/
def State.pushReturn (s : State) (a : Word) : State :=
  { s with stack := s.stack.setIfInBounds s.SP.val a, SP := Fin.ofNat 17 (s.SP.val + 1) }

/-- `SP <- SP − 1`; the entry stays, dead. RET raises StackError before it where the stack is empty. -/
def State.popReturn (s : State) : State := { s with SP := Fin.ofNat 17 (s.SP.val - 1) }

/-- `stack[SP − 1]`, the top entry. -/
def State.stackTop (s : State) : Word :=
  s.stack[s.SP.val - 1]'(by have := s.SP.isLt; omega)

/-! ### The framebuffer (10_state.md rule R22) -/

/-- `fb[x][y]`. -/
def fbGet (fb : Framebuffer) (x : Fin 64) (y : Fin 32) : Bool := fb[x][y]

/-- `fb[x][y] <- b`. -/
def fbSet (fb : Framebuffer) (x : Fin 64) (y : Fin 32) (b : Bool) : Framebuffer :=
  fb.set x (fb[x].set y b)

/-- Every pixel unlit. -/
def fbClear : Framebuffer := Vector.replicate 64 (Vector.replicate 32 false)

/-- The pixel at column `x` and row `y` as the host reads it (60_exceptions.md rule R114). -/
def State.pixel (s : State) (x : Fin 64) (y : Fin 32) : Bool := fbGet s.fb x y

/-! ### The random byte (44_immediate.md rule R84) -/

/-- The step's random byte: the host's, or the free value of this draw. -/
def State.randomByte (s : State) : Byte := s.rnd.getD (Config.freeRandom s.draws)

/-- The state once the byte is drawn: "one draw per execution". -/
def State.drawn (s : State) : State := { s with rnd := none, draws := s.draws + 1 }

/-! ### Taking a fault, and leaving it -/

/-- `raise F`: the core enters Halted with the diagnostic, "no change to any state field except `mode`" (rules R11,
R103 and R104). The diagnostic's pc is the failing instruction's, which `pc` still holds. -/
def raiseFault (kind : FaultKind) (word : Option Word) (detail : Detail) (s : State) :
    Host.Outcome State Fault Refusal :=
  .next (s.setMode (.halted { kind := kind, pc := s.pc, word := word, detail := detail }))

/-- Reset at a wall-clock time (rules R26 and R121): the one way out of Halted (rule R105). Memory and the host's
inputs are not the reset's to change. -/
def resetWith (p : Params) (now : Nat) (s : State) : State :=
  { s with
    V     := Vector.replicate 16 0
    I     := 0
    pc    := p.loadBase
    SP    := 0
    stack := Vector.replicate 16 0
    DT    := 0
    ST    := 0
    fb    := fbClear
    mode  := .running
    tLast := now }

/-! ### Power-on (rules R119 and R120) -/

/-- The memory of power-on, before the image: all zeros, then the font. -/
def powerOnMemory (p : Params) : Memory :=
  memWriteBlock (memWriteBlock [] 0 (List.replicate Config.memSize 0)) p.fontBase p.font

/-- Load an image at a wall-clock time: the first state, or LoadError "in place of an initial state". -/
def powerOnWith (p : Params) (now : Nat) (image : List Byte) : Host.Outcome State Fault Refusal :=
  if image.length > Config.memSize - p.loadBase.toNat then .fault (.loadError image.length)
  else .next (resetWith p now (State.reset.setMem (memWriteBlock (powerOnMemory p) p.loadBase.toNat image)))

/-- Load an image into this hardware. -/
def powerOn (now : Nat) (image : List Byte) : Host.Outcome State Fault Refusal :=
  powerOnWith Config.params now image

/-! ### The sound timer's derived signal (60_exceptions.md rule R112) -/

/-- `sound_active = (ST ≠ 0)`, for the host; no rule of the core reads it. -/
def State.soundActive (s : State) : Bool := s.ST != 0

end Sys2Proof.Machine
end

