-- ==== Sys2Proof/Machine/Operands.lean ====
section
/-! DEFINITION. The operand forms: immediates widened with zeros (30_encoding.md rule R41), the shift's source
(43_alu.md rule R78), the font digit (48_memory_block.md rule R98), the BCD digits (rule R99), the registers of a
block (rules R100 and R101), the key lookup (46_keypad.md rule R89) and the sprite's origin (45_display.md rule
R86). -/

namespace Sys2Proof.Machine

/-- `zext_16(nnn)`. -/
def zext16 (nnn : Addr12) : Word := nnn.zeroExtend 16

/-- `trunc_8(v)`. -/
def trunc8 (v : Nat) : Byte := BitVec.ofNat 8 v

/-- `trunc_16(v)`. -/
def trunc16 (v : Nat) : Word := BitVec.ofNat 16 v

/-- The operand of a shift: V[x], or V[y] with SHIFT_SOURCE = Vy. -/
def shiftOperand (src : ShiftSource) (x y : Reg) (s : State) : Byte :=
  match src with
  | .vx => s.getV x
  | .vy => s.getV y

/-- The address of the glyph of a byte's low nibble. -/
def glyphAddress (fontBase : Nat) (v : Byte) : Word :=
  trunc16 (fontBase + Config.glyphBytes * (v &&& 0x0F).toNat)

/-- The three decimal digits of a byte, hundreds first. -/
def bcdDigits (v : Byte) : List Byte :=
  [trunc8 (v.toNat / 100), trunc8 (v.toNat / 10 % 10), trunc8 (v.toNat % 10)]

/-- The values of V[0] to V[x]. -/
def blockRegs (s : State) (x : Reg) : List Byte := s.V.toList.take (x.val + 1)

/-- Write registers from index `k` on. -/
def setRegs (regs : Vector Byte 16) (k : Nat) : List Byte → Vector Byte 16
  | [] => regs
  | v :: vs => setRegs (regs.setIfInBounds k v) (k + 1) vs

/-- Is bit `k` of a key sample set? -/
def keyDown (keys : KeySample) (k : Nat) : Bool := keys.getLsbD k

/-- `pressed(v)`; `none` where it raises KeyRangeError. -/
def pressed (policy : KeyRangePolicy) (keys : KeySample) (v : Byte) : Option Bool :=
  if v.toNat < 16 then some (keyDown keys v.toNat)
  else
    match policy with
    | .fault      => none
    | .lowNibble  => some (keyDown keys (v &&& 0x0F).toNat)
    | .notPressed => some false

/-- The keys that went from released to pressed between two samples (rule R93). -/
def freshKeys (keys prev : KeySample) : KeySample := keys &&& ~~~prev

/-- The lowest key set in a sample. -/
def lowestKey (keys : KeySample) : Option Reg :=
  (List.finRange 16).find? (fun k => keyDown keys k.val)

/-- A start coordinate of a draw: reduced modulo the edge with DRAW_START_WRAP, else as it is. -/
def startCoord (wrap : Bool) (edge : Nat) (v : Byte) : Nat :=
  if wrap then v.toNat % edge else v.toNat

end Sys2Proof.Machine
end

