-- ==== Sys2Proof/Machine/Flags.lean ====
section
/-! DEFINITION. The flag computations: every value VF takes as a flag (10_state.md rule R15, 43_alu.md rules R70
to R80), the two orders of writing result and flag (rule R71), and what the logic instructions do to VF (rule
R73). -/

namespace Sys2Proof.Machine

/-- A flag as the byte VF takes. -/
def flagByte (b : Bool) : Byte := if b then 1 else 0

/-- The carry of 8xy4: the unsigned sum exceeds 255. -/
def carryOut (a b : Byte) : Bool := decide (a.toNat + b.toNat > 255)

/-- The not-borrow of `a − b`: a ≥ b. -/
def notBorrow (a b : Byte) : Bool := decide (a.toNat ≥ b.toNat)

/-- The bit a right shift by one drops. -/
def shiftedOutLow (v : Byte) : Bool := v.getLsbD 0

/-- The bit a left shift by one drops. -/
def shiftedOutHigh (v : Byte) : Bool := v.getLsbD 7

/-- `trunc_8(a + b)`. -/
def addByte (a b : Byte) : Byte := trunc8 (a.toNat + b.toNat)

/-- `trunc_8(a − b + 256)`. -/
def subByte (a b : Byte) : Byte := trunc8 (a.toNat + 256 - b.toNat)

/-- `src >> 1`. -/
def shiftRightByte (v : Byte) : Byte := v >>> 1

/-- `trunc_8(src << 1)`. -/
def shiftLeftByte (v : Byte) : Byte := v <<< 1

/-- `write_with_flag(x, res, flag)` (rule R71). -/
def writeWithFlag (order : VfOrder) (x : Reg) (res : Byte) (flag : Bool) (s : State) : State :=
  match order with
  | .flagLast   => (s.setV x res).setV VF (flagByte flag)
  | .resultLast => (s.setV VF (flagByte flag)).setV x res

/-- The result of a logic instruction, then `V[15] <- 0` with LOGIC_VF_RESET (rule R73). -/
def writeLogic (vfReset : Bool) (x : Reg) (res : Byte) (s : State) : State :=
  if vfReset then (s.setV x res).setV VF 0 else s.setV x res

end Sys2Proof.Machine
end

