-- ==== Sys2Proof/Machine/Alu.lean ====
section
/-! DEFINITION. The ALU on Vx, Vy (43_alu.md rules R70 to R80). Every operand is read before anything is
written (rule R71). -/

namespace Sys2Proof.Machine

/-- 8xy0 LD Vx, Vy (rule R72). -/
def execLdReg (x y : Reg) (s : State) : Host.Outcome State Fault Refusal :=
  .next ((s.setV x (s.getV y)).advance 2)

/-- Rule R73, at any parameters. -/
def orWith (p : Params) (x y : Reg) (s : State) : Host.Outcome State Fault Refusal :=
  .next ((writeLogic p.logicVfReset x (s.getV x ||| s.getV y) s).advance 2)

/-- Rule R74, at any parameters. -/
def andWith (p : Params) (x y : Reg) (s : State) : Host.Outcome State Fault Refusal :=
  .next ((writeLogic p.logicVfReset x (s.getV x &&& s.getV y) s).advance 2)

/-- Rule R75, at any parameters. -/
def xorWith (p : Params) (x y : Reg) (s : State) : Host.Outcome State Fault Refusal :=
  .next ((writeLogic p.logicVfReset x (s.getV x ^^^ s.getV y) s).advance 2)

/-- Rule R76, at any parameters. -/
def addWith (p : Params) (x y : Reg) (s : State) : Host.Outcome State Fault Refusal :=
  let a := s.getV x
  let b := s.getV y
  .next ((writeWithFlag p.vfOrder x (addByte a b) (carryOut a b) s).advance 2)

/-- Rule R77, at any parameters. -/
def subWith (p : Params) (x y : Reg) (s : State) : Host.Outcome State Fault Refusal :=
  let a := s.getV x
  let b := s.getV y
  .next ((writeWithFlag p.vfOrder x (subByte a b) (notBorrow a b) s).advance 2)

/-- Rule R78, at any parameters. -/
def shrWith (p : Params) (x y : Reg) (s : State) : Host.Outcome State Fault Refusal :=
  let src := shiftOperand p.shiftSource x y s
  .next ((writeWithFlag p.vfOrder x (shiftRightByte src) (shiftedOutLow src) s).advance 2)

/-- Rule R79, at any parameters. -/
def subnWith (p : Params) (x y : Reg) (s : State) : Host.Outcome State Fault Refusal :=
  let a := s.getV x
  let b := s.getV y
  .next ((writeWithFlag p.vfOrder x (subByte b a) (notBorrow b a) s).advance 2)

/-- Rule R80, at any parameters. -/
def shlWith (p : Params) (x y : Reg) (s : State) : Host.Outcome State Fault Refusal :=
  let src := shiftOperand p.shiftSource x y s
  .next ((writeWithFlag p.vfOrder x (shiftLeftByte src) (shiftedOutHigh src) s).advance 2)

/-- 8xy1 OR Vx, Vy (rule R73). -/
def execOrReg (x y : Reg) (s : State) : Host.Outcome State Fault Refusal := orWith Config.params x y s

/-- 8xy2 AND Vx, Vy (rule R74). -/
def execAndReg (x y : Reg) (s : State) : Host.Outcome State Fault Refusal := andWith Config.params x y s

/-- 8xy3 XOR Vx, Vy (rule R75). -/
def execXorReg (x y : Reg) (s : State) : Host.Outcome State Fault Refusal := xorWith Config.params x y s

/-- 8xy4 ADD Vx, Vy (rule R76). -/
def execAddReg (x y : Reg) (s : State) : Host.Outcome State Fault Refusal := addWith Config.params x y s

/-- 8xy5 SUB Vx, Vy (rule R77). -/
def execSub (x y : Reg) (s : State) : Host.Outcome State Fault Refusal := subWith Config.params x y s

/-- 8xy6 SHR Vx, Vy (rule R78). -/
def execShr (x y : Reg) (s : State) : Host.Outcome State Fault Refusal := shrWith Config.params x y s

/-- 8xy7 SUBN Vx, Vy (rule R79). -/
def execSubn (x y : Reg) (s : State) : Host.Outcome State Fault Refusal := subnWith Config.params x y s

/-- 8xyE SHL Vx, Vy (rule R80). -/
def execShl (x y : Reg) (s : State) : Host.Outcome State Fault Refusal := shlWith Config.params x y s

end Sys2Proof.Machine
end

