-- ==== Sys2Proof/Machine/Block.lean ====
section
/-! DEFINITION. Index and memory block operations (48_memory_block.md rules R97 to R101). -/

namespace Sys2Proof.Machine

/-- Fx1E ADD I, Vx (rule R97): 16 bits, no flag. -/
def execAddI (x : Reg) (s : State) : Host.Outcome State Fault Refusal :=
  .next ((s.setI (trunc16 (s.I.toNat + (s.getV x).toNat))).advance 2)

/-- Rule R98, at any parameters. -/
def ldFWith (p : Params) (x : Reg) (s : State) : Host.Outcome State Fault Refusal :=
  .next ((s.setI (glyphAddress p.fontBase (s.getV x))).advance 2)

/-- Fx29 LD F, Vx (rule R98). -/
def execLdF (x : Reg) (s : State) : Host.Outcome State Fault Refusal := ldFWith Config.params x s

/-- Fx33 LD B, Vx (rule R99). -/
def execLdB (x : Reg) (s : State) : Host.Outcome State Fault Refusal :=
  if inRange s.I 3 then .next ((s.setMem (memWriteBlock s.mem s.I.toNat (bcdDigits (s.getV x)))).advance 2)
  else raiseFault .memoryRangeIndex (some (encode (.ldB x))) (.address s.I) s

/-- I after a block operation: `I + x + 1` with BLOCK_I_INCREMENT, else unchanged (rule R100). -/
def blockIndex (increment : Bool) (x : Reg) (s : State) : State :=
  if increment then s.setI (trunc16 (s.I.toNat + x.val + 1)) else s

/-- Rule R100, at any parameters. -/
def stRegsWith (p : Params) (x : Reg) (s : State) : Host.Outcome State Fault Refusal :=
  if inRange s.I (x.val + 1) then
    .next ((blockIndex p.blockIIncrement x (s.setMem (memWriteBlock s.mem s.I.toNat (blockRegs s x)))).advance 2)
  else raiseFault .memoryRangeIndex (some (encode (.stRegs x))) (.address s.I) s

/-- Rule R101, at any parameters. -/
def ldRegsWith (p : Params) (x : Reg) (s : State) : Host.Outcome State Fault Refusal :=
  if inRange s.I (x.val + 1) then
    let regs := setRegs s.V 0 (memReadBlock s.mem s.I.toNat (x.val + 1))
    .next ((blockIndex p.blockIIncrement x (s.setRegFile regs)).advance 2)
  else raiseFault .memoryRangeIndex (some (encode (.ldRegs x))) (.address s.I) s

/-- Fx55 LD [I], Vx (rule R100). -/
def execStRegs (x : Reg) (s : State) : Host.Outcome State Fault Refusal := stRegsWith Config.params x s

/-- Fx65 LD Vx, [I] (rule R101). -/
def execLdRegs (x : Reg) (s : State) : Host.Outcome State Fault Refusal := ldRegsWith Config.params x s

end Sys2Proof.Machine
end

