-- ==== Sys2Proof/Machine/Control.lean ====
section
/-! DEFINITION. Control flow: SYS, JP, CALL, RET, JP V0 (41_control_flow.md rules R61 to R65). A meaning whose
rule reads a parameter is written over the parameters (`…With`); the instruction takes this hardware's. -/

namespace Sys2Proof.Machine

/-- Rule R61, at any parameters. -/
def sysWith (p : Params) (nnn : Addr12) (s : State) : Host.Outcome State Fault Refusal :=
  match p.sysMode with
  | .halt => raiseFault .unsupportedSys (some (encode (.sys nnn))) .none s
  | .nop  => .next (s.advance 2)

/-- 0nnn SYS (rule R61). -/
def execSys (nnn : Addr12) (s : State) : Host.Outcome State Fault Refusal := sysWith Config.params nnn s

/-- 1nnn JP (rule R62). -/
def execJp (nnn : Addr12) (s : State) : Host.Outcome State Fault Refusal := .next (s.setPc (zext16 nnn))

/-- 2nnn CALL (rule R63): pushes its own address. -/
def execCall (nnn : Addr12) (s : State) : Host.Outcome State Fault Refusal :=
  if s.SP.val = Config.stackDepth then
    raiseFault .stackOverflow (some (encode (.call nnn))) (.depth s.SP.val) s
  else .next ((s.pushReturn s.pc).setPc (zext16 nnn))

/-- 00EE RET (rule R64): resumes 2 past the popped address. -/
def execRet (s : State) : Host.Outcome State Fault Refusal :=
  if s.SP.val = 0 then raiseFault .stackUnderflow (some (encode .ret)) (.depth s.SP.val) s
  else .next (s.popReturn.setPc (trunc16 (s.stackTop.toNat + 2)))

/-- Bnnn JP V0 (rule R65): the sum is not reduced to 12 bits. -/
def execJpV0 (nnn : Addr12) (s : State) : Host.Outcome State Fault Refusal :=
  .next (s.setPc (trunc16 (nnn.toNat + (s.getV 0).toNat)))

end Sys2Proof.Machine
end

