-- ==== Sys2Proof/Machine/Display.lean ====
section
/-! DEFINITION. Framebuffer drawing (45_display.md rules R85 to R88). -/

namespace Sys2Proof.Machine

/-- What a draw carries along: the framebuffer, and whether a lit pixel has gone out. -/
structure Drawing where
  fb      : Framebuffer
  collide : Bool
  deriving DecidableEq, Repr

/-- A 1 bit of a sprite lands on column `X` and row `Y`: it flips the pixel, or is clipped (rule R86). -/
def drawBit (X Y : Nat) (d : Drawing) : Drawing :=
  if h : X < 64 ∧ Y < 32 then
    let lit := fbGet d.fb ⟨X, h.1⟩ ⟨Y, h.2⟩
    { fb := fbSet d.fb ⟨X, h.1⟩ ⟨Y, h.2⟩ (!lit), collide := d.collide || lit }
  else d

/-- Is the bit of a row byte at a column offset set? Offset 0 is bit 7 (rule R85). -/
def spriteBit (row : Byte) (c : Nat) : Bool := row.getLsbD (7 - c)

/-- Draw one row byte from its column offset `c` on, `k` bits of it. -/
def drawRowFrom (X0 Y : Nat) (row : Byte) (c : Nat) : Nat → Drawing → Drawing
  | 0, d => d
  | k + 1, d => drawRowFrom X0 Y row (c + 1) k (if spriteBit row c then drawBit (X0 + c) Y d else d)

/-- Draw the rows of a sprite, the first at row `Y`. -/
def drawRows (X0 Y : Nat) : List Byte → Drawing → Drawing
  | [], d => d
  | row :: rows, d => drawRows X0 (Y + 1) rows (drawRowFrom X0 Y row 0 8 d)

/-- 00E0 CLS (rule R87). -/
def execCls (s : State) : Host.Outcome State Fault Refusal := .next ((s.setFb fbClear).advance 2)

/-- The draw of rule R88 at its start coordinates: all the pixels, then VF. -/
def drawSprite (px0 py0 : Nat) (rows : List Byte) (s : State) : State :=
  let d := drawRows px0 py0 rows { fb := s.fb, collide := false }
  (s.setFb d.fb).setV VF (flagByte d.collide)

/-- Rule R88, at any parameters. -/
def drwWith (p : Params) (x y : Reg) (n : Fin 16) (s : State) : Host.Outcome State Fault Refusal :=
  if n.val > 0 ∧ inRange s.I n.val = false then
    raiseFault .memoryRangeIndex (some (encode (.drw x y n))) (.address s.I) s
  else
    let px0 := startCoord p.drawStartWrap Config.fbWidth (s.getV x)
    let py0 := startCoord p.drawStartWrap Config.fbHeight (s.getV y)
    .next ((drawSprite px0 py0 (memReadBlock s.mem s.I.toNat n.val) s).advance 2)

/-- Dxyn DRW Vx, Vy, n (rule R88). -/
def execDrw (x y : Reg) (n : Fin 16) (s : State) : Host.Outcome State Fault Refusal := drwWith Config.params x y n s

end Sys2Proof.Machine
end

