-- ==== Sys2Proof/Machine/Immediate.lean ====
section
/-! DEFINITION. Immediates and the random byte (44_immediate.md rules R81 to R84). -/

namespace Sys2Proof.Machine

/-- 6xkk LD Vx, kk (rule R81). -/
def execLdImm (x : Reg) (kk : Byte) (s : State) : Host.Outcome State Fault Refusal := .next ((s.setV x kk).advance 2)

/-- 7xkk ADD Vx, kk (rule R82): no carry flag. -/
def execAddImm (x : Reg) (kk : Byte) (s : State) : Host.Outcome State Fault Refusal :=
  .next ((s.setV x (addByte (s.getV x) kk)).advance 2)

/-- Annn LD I, nnn (rule R83). -/
def execLdI (nnn : Addr12) (s : State) : Host.Outcome State Fault Refusal := .next ((s.setI (zext16 nnn)).advance 2)

/-- Cxkk RND Vx, kk (rule R84): the step's random byte, masked. -/
def execRnd (x : Reg) (kk : Byte) (s : State) : Host.Outcome State Fault Refusal :=
  .next ((s.drawn.setV x (s.randomByte &&& kk)).advance 2)

end Sys2Proof.Machine
end

