-- ==== Sys2Proof/Machine/Skips.lean ====
section
/-! DEFINITION. The conditional skips (42_skips.md rules R66 to R69). -/

namespace Sys2Proof.Machine

/-- `if taken: advance(4) else: advance(2)` (40_cycle_driver.md rule R54). -/
def skipIf (taken : Bool) (s : State) : Host.Outcome State Fault Refusal :=
  .next (s.advance (if taken then 4 else 2))

/-- 3xkk SE Vx, kk (rule R66). -/
def execSeImm (x : Reg) (kk : Byte) (s : State) : Host.Outcome State Fault Refusal := skipIf (s.getV x == kk) s

/-- 4xkk SNE Vx, kk (rule R67). -/
def execSneImm (x : Reg) (kk : Byte) (s : State) : Host.Outcome State Fault Refusal := skipIf (s.getV x != kk) s

/-- 5xy0 SE Vx, Vy (rule R68). -/
def execSeReg (x y : Reg) (s : State) : Host.Outcome State Fault Refusal := skipIf (s.getV x == s.getV y) s

/-- 9xy0 SNE Vx, Vy (rule R69). -/
def execSneReg (x y : Reg) (s : State) : Host.Outcome State Fault Refusal := skipIf (s.getV x != s.getV y) s

end Sys2Proof.Machine
end

