-- ==== Sys2Proof/Machine/Keypad.lean ====
section
/-! DEFINITION. The keypad skips, the blocking key wait and its poll (46_keypad.md rules R89 to R93). -/

namespace Sys2Proof.Machine

/-- Rule R90, at any parameters. -/
def skpWith (p : Params) (x : Reg) (s : State) : Host.Outcome State Fault Refusal :=
  match pressed p.keyRangePolicy s.keys (s.getV x) with
  | none   => raiseFault .keyRangeError (some (encode (.skp x))) (.key (s.getV x)) s
  | some b => skipIf b s

/-- Rule R91, at any parameters. -/
def sknpWith (p : Params) (x : Reg) (s : State) : Host.Outcome State Fault Refusal :=
  match pressed p.keyRangePolicy s.keys (s.getV x) with
  | none   => raiseFault .keyRangeError (some (encode (.sknp x))) (.key (s.getV x)) s
  | some b => skipIf (!b) s

/-- Ex9E SKP Vx (rule R90). -/
def execSkp (x : Reg) (s : State) : Host.Outcome State Fault Refusal := skpWith Config.params x s

/-- ExA1 SKNP Vx (rule R91). -/
def execSknp (x : Reg) (s : State) : Host.Outcome State Fault Refusal := sknpWith Config.params x s

/-- Fx0A LD Vx, K (rule R92): the core waits, and `pc` is held. -/
def execLdVK (x : Reg) (s : State) : Host.Outcome State Fault Refusal := .next (s.setMode (.waiting x s.keys))

/-- The poll step of a wait (rule R93), with the state's key sample: it ends on the lowest key that went from
released to pressed since the sample `prev`. -/
def poll (x : Reg) (prev : KeySample) (s : State) : State :=
  match lowestKey (freshKeys s.keys prev) with
  | some k => ((s.setV x (BitVec.ofNat 8 k.val)).setMode .running).advance 2
  | none   => s.setMode (.waiting x s.keys)

end Sys2Proof.Machine
end

