-- ==== Sys2Proof/Machine/Timers.lean ====
section
/-! DEFINITION. The timer instructions (47_timers.md rules R94 to R96), the tick and the wall-clock timebase
(60_exceptions.md rules R109 and R110). -/

namespace Sys2Proof.Machine

/-- Fx07 LD Vx, DT (rule R94). -/
def execLdVDt (x : Reg) (s : State) : Host.Outcome State Fault Refusal := .next ((s.setV x s.DT).advance 2)

/-- Fx15 LD DT, Vx (rule R95). -/
def execLdDtV (x : Reg) (s : State) : Host.Outcome State Fault Refusal := .next ((s.setDT (s.getV x)).advance 2)

/-- Fx18 LD ST, Vx (rule R96). -/
def execLdStV (x : Reg) (s : State) : Host.Outcome State Fault Refusal := .next ((s.setST (s.getV x)).advance 2)

/-- One down, with a floor at 0. -/
def countDown (v : Byte) : Byte := if v.toNat > 0 then v - 1 else v

/-- The tick of rule R109: both timers, and nothing else. -/
def tick (s : State) : State := (s.setDT (countDown s.DT)).setST (countDown s.ST)

/-- The modes a tick is enabled in (rule R109). -/
def tickEnabled (p : Params) : Mode → Bool
  | .running     => true
  | .waiting _ _ => p.timersDuringWait == .ticking
  | .halted _    => false

/-- The host's tick event: a tick where one is enabled, nothing elsewhere. -/
def hostTick (p : Params) (s : State) : State := if tickEnabled p s.mode then tick s else s

/-- `n` turns of the timebase's loop: a tick, then `t_last <- t_last + 1/60 s` (rule R110). -/
def catchUp : Nat → State → State
  | 0, s => s
  | n + 1, s => catchUp n { tick s with tLast := s.tLast + Config.tickInterval }

/-- The timebase at the time `now` (rule R110): a tick for each elapsed interval; where none is enabled, `t_last`
follows `now` and the intervals are dropped. -/
def timebase (p : Params) (now : Nat) (s : State) : State :=
  if tickEnabled p s.mode then catchUp ((now - s.tLast) / Config.tickInterval) s
  else { s with tLast := now }

end Sys2Proof.Machine
end

