-- ==== Sys2Proof/Machine/Cycle.lean ====
section
/-! DEFINITION. The Cycle Driver (40_cycle_driver.md): the instruction step, and what each input of the host makes
the core do in each mode. -/

namespace Sys2Proof.Machine

/-- `MemRead(pc, 2)`: the word at `pc`, high byte first (20_memory.md rule R29). -/
def fetchWord (s : State) : Word := wordOfBytes (s.readByte s.pc.toNat) (s.readByte (s.pc.toNat + 1))

/-- The instruction step of rule R51, in the order of checks of 60_exceptions.md rule R106: the fetch range, the
decode, then the instruction's own. -/
def instructionStep (s : State) : Host.Outcome State Fault Refusal :=
  if inRange s.pc 2 then
    match decodeWord (fetchWord s) with
    | .ok i    => exec i s
    | .error _ => raiseFault .decodeError (some (fetchWord s)) .none s
  else raiseFault .memoryRangeFetch none (.address s.pc) s

/-- The core's own step with a key sample and a random byte, by mode (rule R50): an instruction step, a poll, or,
halted, none. -/
def cycleStep (keys : KeySample) (rnd : Option Byte) (s : State) : Host.Outcome State Fault Refusal :=
  match s.mode with
  | .running        => instructionStep { s with keys := keys, rnd := rnd }
  | .waiting x prev => .next (poll x prev { s with keys := keys })
  | .halted _       => .next s

/-- What one input of the host does. One that is not enabled in the mode (rule R50) changes nothing. -/
def applyInput (inp : Input) (s : State) : Host.Outcome State Fault Refusal :=
  match inp with
  | .cycle keys rnd => cycleStep keys rnd s
  | .tick           => .next (hostTick Config.params s)
  | .clock now      => .next (timebase Config.params now s)
  | .reset now      => .next (resetWith Config.params now s)
  | .exit           => .fault .hostExit

/-- A step of the core with no input of the host to come: it goes on with the last key sample and a free random byte;
halted, it is stuck. -/
def unattendedStep (s : State) : Host.Outcome State Fault Refusal :=
  match s.mode with
  | .halted d                  => .fault (.halted d)
  | .running | .waiting _ _    => cycleStep s.keys none s

/-- The host's next input, and the state with it taken: the script's, or, past its end, the plan's. `none` where the
host has none to come. -/
def takeInput (s : State) : Option (Input × State) :=
  match s.script with
  | inp :: rest => some (inp, { s with script := rest })
  | [] =>
    match s.plan with
    | .coreOnly         => none
    | .repeats inp rest => some (inp, { s with script := rest })
    | .free             => some (Config.freeInput s.taken, { s with taken := s.taken + 1 })

/-- Take the host's next input, or go on without one. -/
def nextStep (s : State) : Host.Outcome State Fault Refusal :=
  match takeInput s with
  | some (inp, t) => applyInput inp t
  | none          => unattendedStep s

/-- A `pc` an instruction can be fetched from: `pc` itself where it is one, else LOAD_BASE. -/
def fetchablePc (s : State) : Word := if inRange s.pc 2 then s.pc else Config.params.loadBase

/-- Place a word where the next step fetches it: in Running mode, with no input of the host before it. -/
def placeWord (s : State) (w : Word) : State :=
  let pc := fetchablePc s
  { s with
    mode   := .running
    script := []
    plan   := .coreOnly
    pc     := pc
    mem    := memWriteBlock s.mem pc.toNat (bytesOfWord w) }

end Sys2Proof.Machine
end

