-- ==== Sys2Proof/Machine/Step.lean ====
section
/-! DEFINITION. The step function, and the state that runs a given word next. -/

namespace Sys2Proof.Machine

/-- One step of the core: the host's next input, or the core's own step (40_cycle_driver.md rules R50 and R56). -/
def step (s : State) : Host.Outcome State Fault Refusal := nextStep s

/-- The state with a table row's word stored where the next step fetches it. -/
def State.withFetchWord (s : State) (nbits w : Nat) : State := placeWord s (tableWord nbits w)

end Sys2Proof.Machine
end

