-- ==== Sys2Proof/Safety.lean ====
section
/-! DEFINITION. The terms claims are made in: what a step leaves unchanged (frames), which state the spec lets an
instruction write, and the invariant of the states a run can reach. -/

namespace Sys2Proof.Machine

/-! ### Frames -/

/-- The parts of the state besides the general registers, the program counter and the keypad's input side. -/
inductive Part where
  | index
  | stack
  | delayTimer
  | soundTimer
  | display
  | mode
  | memory
  | random
  | host
  deriving DecidableEq, Repr

/-- A part is the same in two states: every byte of memory and every pixel, read one at a time. -/
def Kept (s t : State) : Part → Prop
  | .index      => t.I = s.I
  | .stack      => t.SP = s.SP ∧ t.stack = s.stack
  | .delayTimer => t.DT = s.DT
  | .soundTimer => t.ST = s.ST
  | .display    => ∀ x y, t.pixel x y = s.pixel x y
  | .mode       => t.mode = s.mode
  | .memory     => ∀ a, t.readByte a = s.readByte a
  | .random     => t.rnd = s.rnd ∧ t.draws = s.draws
  | .host       =>
    t.keys = s.keys ∧ t.script = s.script ∧ t.plan = s.plan ∧ t.taken = s.taken ∧ t.tLast = s.tLast

/-- Nothing changes but the registers `regs`, the parts `parts`, and the program counter. -/
def FrameBut (regs : List Reg) (parts : List Part) (s t : State) : Prop :=
  (∀ r, r ∉ regs → t.getV r = s.getV r) ∧ ∀ p, p ∉ parts → Kept s t p

/-- The state after a fault: `mode` is Halted with the diagnostic, and nothing else is changed (rule R104). -/
def haltedWith (kind : FaultKind) (word : Option Word) (detail : Detail) (s : State) : State :=
  { s with mode := .halted { kind := kind, pc := s.pc, word := word, detail := detail } }

/-- `advance(k)` was taken: pc is `k` further, modulo 2^16 (00_scope.md rule R11). -/
def Advanced (k : Nat) (s t : State) : Prop := t.pc.toNat = (s.pc.toNat + k) % 65536

/-- The host's next input in `s` is `inp`, and `t` is `s` with it taken: the first of the script, or, past its end,
what the plan gives (DESIGN CHOICE, log entries 1 and 15: the spec leaves the host free). -/
def NextInput (s : State) (inp : Input) (t : State) : Prop :=
  (∃ rest, s.script = inp :: rest ∧ t = { s with script := rest }) ∨
  (s.script = [] ∧
    ((∃ rest, s.plan = .repeats inp rest ∧ t = { s with script := rest }) ∨
      (s.plan = .free ∧ inp = Config.freeInput s.taken ∧ t = { s with taken := s.taken + 1 })))

/-- No input of the host is to come. -/
def NoInput (s : State) : Prop := s.script = [] ∧ s.plan = .coreOnly

/-- `u` is `s` as its next instruction or poll step begins: the host's next input, a sample of keys and random byte,
is taken, or, with none to come, the last key sample stands and the random byte is free (DESIGN CHOICE, log entry
1). -/
def CycleStart (s u : State) : Prop :=
  (NoInput s ∧ u = { s with rnd := none }) ∨
    ∃ keys rnd t, NextInput s (.cycle keys rnd) t ∧ u = { t with keys := keys, rnd := rnd }

/-- The fields reset sets (10_state.md rule R26), at the wall-clock time of the reset. -/
structure HasResetValues (now : Nat) (t : State) : Prop where
  regs    : ∀ r, t.getV r = 0
  index   : t.I = 0
  pc      : t.pc = 0x200
  depth   : t.SP = 0
  entries : ∀ j : Fin 16, t.stack[j] = 0
  delay   : t.DT = 0
  sound   : t.ST = 0
  dark    : ∀ x y, t.pixel x y = false
  mode    : t.mode = .running
  time    : t.tLast = now

/-! ### Runs and fairness (40_cycle_driver.md rules R56 and R57) -/

/-- The step of `s` is the core's own: an instruction step or a poll. -/
def CoreStepTaken (s : State) : Prop := ∃ u, CycleStart s u

/-- The step of `s` ticks: the host's tick, or the clock with an interval elapsed. -/
def TickTaken (s : State) : Prop :=
  (∃ t, NextInput s .tick t) ∨ ∃ now t, NextInput s (.clock now) t ∧ s.tLast + Config.tickInterval ≤ now

/-- The two premises of rule R57, weak fairness of instruction steps and of ticks, on a run without end: from every
point on, the one is taken at some later point or is not enabled there, and so is the other. -/
structure FairRun (r : Nat → State) : Prop where
  steps     : ∀ n, step (r n) = .next (r (n + 1))
  core_fair : ∀ n, ∃ m, n ≤ m ∧ (CoreStepTaken (r m) ∨ ∃ d, (r m).mode = .halted d)
  tick_fair : ∀ n, ∃ m, n ≤ m ∧ (TickTaken (r m) ∨ tickEnabled Config.params (r m).mode = false)

/-! ### Drawing -/

/-- The sprite of `n` rows at I, drawn at column `px0` and row `py0`, has a 1 bit on the pixel (X, Y): the pixel is
one of its 8 columns and `n` rows, and the bit of its row byte is set, bit 7 leftmost (45_display.md rules R85
and R86). -/
def SpriteHits (s : State) (px0 py0 n X Y : Nat) : Prop :=
  px0 ≤ X ∧ X < px0 + 8 ∧ py0 ≤ Y ∧ Y < py0 + n ∧
    (s.readByte (s.I.toNat + (Y - py0))).getLsbD (7 - (X - px0)) = true

/-- What a draw of `n` rows at (px0, py0) leaves: every pixel the sprite hits is flipped and no other, and VF says
whether one of them was lit (rule R88). -/
def DrawEffect (px0 py0 n : Nat) (s t : State) : Prop :=
  (∀ (X : Fin 64) (Y : Fin 32), SpriteHits s px0 py0 n X Y → t.pixel X Y = !(s.pixel X Y)) ∧
  (∀ (X : Fin 64) (Y : Fin 32), ¬ SpriteHits s px0 py0 n X Y → t.pixel X Y = s.pixel X Y) ∧
  ((∃ (X : Fin 64) (Y : Fin 32), SpriteHits s px0 py0 n X Y ∧ s.pixel X Y = true) → t.getV VF = 1) ∧
  ((∀ (X : Fin 64) (Y : Fin 32), SpriteHits s px0 py0 n X Y → s.pixel X Y = false) → t.getV VF = 0)

/-! ### What the spec lets an instruction write -/

/-- The general registers an instruction writes (10_state.md rules R14 and R15). -/
def regsWritten : Instr → List Reg
  | .ldImm x _ | .addImm x _ | .ldReg x _ | .orReg x _ | .andReg x _ | .xorReg x _ | .rnd x _ | .ldVDt x => [x]
  | .addReg x _ | .sub x _ | .shr x _ | .subn x _ | .shl x _ => [x, VF]
  | .drw _ _ _ => [VF]
  | .ldRegs x  => (List.finRange 16).filter (fun r => decide (r.val ≤ x.val))
  | .cls | .ret | .sys _ | .jp _ | .call _ | .seImm _ _ | .sneImm _ _ | .seReg _ _ | .sneReg _ _ | .ldI _ | .jpV0 _
  | .skp _ | .sknp _ | .ldVK _ | .ldDtV _ | .ldStV _ | .addI _ | .ldF _ | .ldB _ | .stRegs _ => []

/-- The other parts an instruction writes; `mode` where it can halt the core or make it wait. -/
def partsWritten : Instr → List Part
  | .cls                             => [.display]
  | .ret | .call _                   => [.stack, .mode]
  | .sys _ | .skp _ | .sknp _        => [.mode]
  | .ldVK _                          => [.mode]
  | .ldI _ | .addI _ | .ldF _        => [.index]
  | .rnd _ _                         => [.random]
  | .drw _ _ _                       => [.display, .mode]
  | .ldDtV _                         => [.delayTimer]
  | .ldStV _                         => [.soundTimer]
  | .ldB _ | .stRegs _               => [.memory, .mode]
  | .ldRegs _                        => [.mode]
  | .jp _ | .seImm _ _ | .sneImm _ _ | .seReg _ _ | .ldImm _ _ | .addImm _ _ | .ldReg _ _ | .orReg _ _ | .andReg _ _
  | .xorReg _ _ | .addReg _ _ | .sub _ _ | .shr _ _ | .subn _ _ | .shl _ _ | .sneReg _ _ | .jpV0 _ | .ldVDt _ => []

/-- The faults an instruction's own check can raise (60_exceptions.md rules R102 and R106). -/
def ownFaults : Instr → List FaultKind
  | .ret                                       => [.stackUnderflow]
  | .call _                                    => [.stackOverflow]
  | .sys _                                     => [.unsupportedSys]
  | .drw _ _ _ | .ldB _ | .stRegs _ | .ldRegs _ => [.memoryRangeIndex]
  | .skp _ | .sknp _                           => [.keyRangeError]
  | .cls | .jp _ | .seImm _ _ | .sneImm _ _ | .seReg _ _ | .ldImm _ _ | .addImm _ _ | .ldReg _ _ | .orReg _ _
  | .andReg _ _ | .xorReg _ _ | .addReg _ _ | .sub _ _ | .shr _ _ | .subn _ _ | .shl _ _ | .sneReg _ _ | .ldI _
  | .jpV0 _ | .rnd _ _ | .ldVDt _ | .ldVK _ | .ldDtV _ | .ldStV _ | .addI _ | .ldF _ => []

/-- The four actions on pc (40_cycle_driver.md rule R54). -/
inductive PcAction where
  | next
  | skip
  | retarget
  | hold
  deriving DecidableEq, Repr

/-- The actions of an instruction that raises no fault. -/
def pcActions : Instr → List PcAction
  | .jp _ | .call _ | .ret | .jpV0 _                                             => [.retarget]
  | .seImm _ _ | .sneImm _ _ | .seReg _ _ | .sneReg _ _ | .skp _ | .sknp _        => [.next, .skip]
  | .ldVK _                                                                      => [.hold]
  | .cls | .sys _ | .ldImm _ _ | .addImm _ _ | .ldReg _ _ | .orReg _ _ | .andReg _ _ | .xorReg _ _ | .addReg _ _
  | .sub _ _ | .shr _ _ | .subn _ _ | .shl _ _ | .ldI _ | .rnd _ _ | .drw _ _ _ | .ldVDt _ | .ldDtV _ | .ldStV _
  | .addI _ | .ldF _ | .ldB _ | .stRegs _ | .ldRegs _                             => [.next]

/-- The target an instruction retargets pc to. -/
def jumpTarget (s : State) : Instr → Nat
  | .jp nnn | .call nnn => nnn.toNat
  | .jpV0 nnn           => nnn.toNat + (s.getV 0).toNat
  | .ret                => ((s.stack[s.SP.val - 1]'(by have := s.SP.isLt; omega)).toNat + 2) % 65536
  | .cls | .sys _ | .seImm _ _ | .sneImm _ _ | .seReg _ _ | .ldImm _ _ | .addImm _ _ | .ldReg _ _ | .orReg _ _
  | .andReg _ _ | .xorReg _ _ | .addReg _ _ | .sub _ _ | .shr _ _ | .subn _ _ | .shl _ _ | .sneReg _ _ | .ldI _
  | .rnd _ _ | .drw _ _ _ | .skp _ | .sknp _ | .ldVDt _ | .ldVK _ | .ldDtV _ | .ldStV _ | .addI _ | .ldF _ | .ldB _
  | .stRegs _ | .ldRegs _ => 0

/-- pc after an action. -/
def PcAfter (i : Instr) (s t : State) : PcAction → Prop
  | .next     => Advanced 2 s t
  | .skip     => Advanced 4 s t
  | .retarget => t.pc.toNat = jumpTarget s i
  | .hold     => t.pc = s.pc

/-! ### The invariant -/

/-- The last address an instruction word can be fetched from (40_cycle_driver.md rule R52). -/
def lastFetch : Nat := 0xFFE

/-- What every reachable state has: memory in its canonical form; `pc` at most the 0x10FE that Bnnn can reach
(41_control_flow.md rule R65); live return addresses that a CALL can have been fetched from (rule R64); a waiting
or halted core with `pc` at the instruction it waits in or failed at (rules R92 and R104); and no LoadError in
a diagnostic, which no instruction raises (rule R102). -/
structure Inv (s : State) : Prop where
  mem_wf     : Memory.wf s.mem = true
  pc_le      : s.pc.toNat ≤ 0x10FE
  stack_live : ∀ j : Fin 16, j.val < s.SP.val → s.stack[j].toNat ≤ lastFetch
  waiting_pc : ∀ x prev, s.mode = .waiting x prev → s.pc.toNat ≤ lastFetch
  halted_pc  : ∀ d, s.mode = .halted d → d.pc = s.pc ∧ d.kind ≠ .loadError

end Sys2Proof.Machine
end

