-- ==== Sys2Proof/Certificates/Slice0/Obligations.lean ====
section
/-! DEFINITION. The statements for the provers. -/

open Sys2Proof Sys2Proof.Machine

/-! ### Encoding and decoding -/

/-- The decoder reads an instruction from a word exactly where the instruction is well formed and encodes as that
word: decoding an encoded instruction gives it back, and no bit of a legal word is dropped. -/
def Obligations.DecodeAndEncodeAgree : Prop :=
  ∀ (w : Word) (i : Instr), decodeWord w = .ok i ↔ (i.wf = true ∧ encode i = w)

/-- Rule R29: the byte at the lower address is the high byte of the word, and the bytes after the word are left. -/
def Obligations.BytesDecodeHighByteFirst : Prop :=
  (∀ (hi lo : Byte) (rest : List Byte) (i : Instr),
    decode (hi :: lo :: rest) = .ok (i, rest) ↔ decodeWord (BitVec.ofNat 16 (hi.toNat * 256 + lo.toNat)) = .ok i) ∧
  (∀ (i : Instr) (rest : List Byte), i.wf = true → decode (bytesOfWord (encode i) ++ rest) = .ok (i, rest)) ∧
  (∀ bs : List Byte, bs.length < 2 → decode bs = .error .truncated)

/-- Rule R43: a word decodes to an instruction of a row exactly where `(w & mask) == match` holds and the row does
not leave the word to another; there are 35 rows, and no word belongs to two. -/
def Obligations.DecoderMatchesOpcodeTable : Prop :=
  opcodeRows.length = 35 ∧
  (∀ r ∈ opcodeRows, ∀ w : Word,
    ((w &&& r.mask) = r.pattern ∧ w ∉ r.excludes) ↔ ∃ i, decodeWord w = .ok i ∧ rowOf i = r) ∧
  (∀ r ∈ opcodeRows, ∀ r' ∈ opcodeRows, ∀ w : Word, r.accepts w = true → r'.accepts w = true → r = r')

/-- Rule R45: the words of these five classes are illegal and no others, and executing one raises DecodeError with the
word and pc. -/
def Obligations.IllegalWordsRaiseDecodeError : Prop :=
  (∀ w : Word, (∃ e, decodeWord w = .error e) ↔
    (w.toNat / 4096 = 5 ∧ w.toNat % 16 ≠ 0) ∨
    (w.toNat / 4096 = 8 ∧ w.toNat % 16 ∈ [8, 9, 0xA, 0xB, 0xC, 0xD, 0xF]) ∨
    (w.toNat / 4096 = 9 ∧ w.toNat % 16 ≠ 0) ∨
    (w.toNat / 4096 = 0xE ∧ w.toNat % 256 ∉ [0x9E, 0xA1]) ∨
    (w.toNat / 4096 = 0xF ∧ w.toNat % 256 ∉ [0x07, 0x0A, 0x15, 0x18, 0x1E, 0x29, 0x33, 0x55, 0x65])) ∧
  (∀ (s u : State) (w : Word) (e : Reject), s.mode = .running → CycleStart s u → s.pc.toNat + 1 < 4096 →
    w.toNat = (s.readByte s.pc.toNat).toNat * 256 + (s.readByte (s.pc.toNat + 1)).toNat →
    decodeWord w = .error e → step s = .next (haltedWith .decodeError (some w) .none u))

/-- The sample words of the spec (95_test_vectors.md sections 1 and 2), one or more of each family. -/
def Obligations.SampleWordsDecode : Prop :=
  decodeWord 0x00E0 = .ok .cls ∧ decodeWord 0x00EE = .ok .ret ∧ decodeWord 0x00E1 = .ok (.sys 0x0E1) ∧
  decodeWord 0x1ABC = .ok (.jp 0xABC) ∧ decodeWord 0x2ABC = .ok (.call 0xABC) ∧
  decodeWord 0x5120 = .ok (.seReg 1 2) ∧ decodeWord 0x8120 = .ok (.ldReg 1 2) ∧ decodeWord 0x8121 = .ok (.orReg 1 2) ∧
  decodeWord 0x812E = .ok (.shl 1 2) ∧ decodeWord 0x9120 = .ok (.sneReg 1 2) ∧ decodeWord 0x6A3E = .ok (.ldImm 10 0x3E) ∧
  decodeWord 0xC30F = .ok (.rnd 3 0x0F) ∧ decodeWord 0xD125 = .ok (.drw 1 2 5) ∧ decodeWord 0xE19E = .ok (.skp 1) ∧
  decodeWord 0xF10A = .ok (.ldVK 1) ∧ decodeWord 0xF115 = .ok (.ldDtV 1) ∧ decodeWord 0xF133 = .ok (.ldB 1)

/-! ### The step -/

/-- Rule R51: in Running mode an instruction step fetches the word at pc and pc + 1, decodes it, and executes the
instruction, with the inputs `CycleStart` gives the step (log entry 1). -/
def Obligations.StepRunsTheDecodedInstruction : Prop :=
  ∀ (s u : State) (w : Word) (i : Instr), s.mode = .running → CycleStart s u → s.pc.toNat + 1 < 4096 →
    w.toNat = (s.readByte s.pc.toNat).toNat * 256 + (s.readByte (s.pc.toNat + 1)).toNat →
    decodeWord w = .ok i → step s = exec i u

/-- Rule R52: fetch faults where pc + 1 ≥ MEM_SIZE, and only there, at an odd pc as at an even one. -/
def Obligations.FetchFaultsOnlyOutsideMemory : Prop :=
  ∀ (s u : State), s.mode = .running → CycleStart s u →
    (s.pc.toNat + 1 ≥ 4096 → step s = .next (haltedWith .memoryRangeFetch none (.address s.pc) u)) ∧
    (s.pc.toNat + 1 < 4096 → ∀ t d, step s = .next t → t.mode = .halted d → d.kind ≠ .memoryRangeFetch)

/-- The word `withFetchWord` stores is the one the next step runs, in any state whose memory is canonical (log entry
10). The placing of a word, and that the core goes on by itself with a free random byte, are the model's choice (log
entries 5 and 1); the fetch and the execution are rules R29 and R51. -/
def Obligations.PlacedWordRunsNext : Prop :=
  ∀ (s : State) (nbits w : Nat) (i : Instr), Memory.wf s.mem = true → decodeTableWord nbits w = some i →
    step (s.withFetchWord nbits w) = exec i { s.withFetchWord nbits w with rnd := none }

/-- Rule R106: a step's fault is the fetch range check's, else the decode's, else the instruction's own. -/
def Obligations.FaultPriority : Prop :=
  ∀ (s t : State) (d : Diag), s.mode = .running → (∃ u, CycleStart s u) → step s = .next t → t.mode = .halted d →
    (s.pc.toNat + 1 ≥ 4096 ∧ d.kind = .memoryRangeFetch) ∨
    (s.pc.toNat + 1 < 4096 ∧ (∃ e, decodeWord (fetchWord s) = .error e) ∧ d.kind = .decodeError) ∨
    (s.pc.toNat + 1 < 4096 ∧ ∃ i, decodeWord (fetchWord s) = .ok i ∧ d.kind ∈ ownFaults i)

/-- Rule R104: a fault changes nothing but the mode; its diagnostic has the failing instruction's address and, for an
instruction's own fault, its word. The core's own step begins as `CycleStart` says (the model's choice, log entry 1). -/
def Obligations.FaultsArePrecise : Prop :=
  (∀ (i : Instr) (s t : State) (d : Diag), s.mode = .running → exec i s = .next t → t.mode = .halted d →
    t = { s with mode := .halted d } ∧ d.pc = s.pc ∧ d.word = some (encode i)) ∧
  (∀ (s u t : State) (d : Diag), s.mode = .running → CycleStart s u → step s = .next t → t.mode = .halted d →
    t = { u with mode := .halted d } ∧ d.pc = s.pc)

/-- Rule R105: in Halted only reset has an effect: the core takes no instruction, poll or tick, and with no input to
come it is stuck. That an input which is not enabled is taken with no effect is the model's choice (log entry 1). -/
def Obligations.HaltedUntilReset : Prop :=
  ∀ (s : State) (d : Diag), s.mode = .halted d →
    (NoInput s → step s = .fault (.halted d)) ∧
    (∀ keys rnd u, NextInput s (.cycle keys rnd) u → step s = .next u) ∧
    (∀ u, NextInput s .tick u → step s = .next u) ∧
    (∀ now u, NextInput s (.clock now) u → step s = .next { u with tLast := now }) ∧
    (∀ now u, NextInput s (.reset now) u → ∃ t, step s = .next t ∧ HasResetValues now t ∧ t.script = u.script)

/-- Rule R59: the host's exit signal ends the run, in every mode; the name of the end is the model's (log entry 6). -/
def Obligations.HostExitEndsTheRun : Prop :=
  ∀ s u : State, NextInput s .exit u → step s = .fault .hostExit

/-! ### Reset, load and the invariant -/

/-- Rules R121 and R26: reset, between any two steps and in any mode, sets every field of the core but memory. That a
reset is an input of the host, and that it leaves the host's own fields as they are, is the model's choice (log entries
1, 2 and 15). -/
def Obligations.ResetSetsTheInitialState : Prop :=
  ∀ (s u : State) (now : Nat), NextInput s (.reset now) u →
    ∃ t, step s = .next t ∧ HasResetValues now t ∧ (∀ a, t.readByte a = s.readByte a) ∧
      t.script = u.script ∧ t.plan = s.plan ∧ t.taken = u.taken ∧ t.keys = s.keys ∧ t.rnd = s.rnd ∧ t.draws = s.draws

/-- Rule R122: a second reset changes nothing but the wall-clock time, and what is left of the host's inputs (log entry
1). -/
def Obligations.ResetIsIdempotent : Prop :=
  ∀ (s u : State) (now : Nat), NextInput s (.reset now) u →
    ∃ t, step s = .next t ∧ HasResetValues now t ∧
      ∀ now' v, NextInput t (.reset now') v → step t = .next { v with tLast := now' }

/-- Rules R119 and R120: an image that fits gives the reset state with the font, the image and zeros in memory; one
that does not gives LoadError. That memory is then in its canonical form is the model's own (log entry 10), and so are
the host's fields, of which nothing is said (log entries 2, 3 and 15). -/
def Obligations.LoadBuildsTheFirstState : Prop :=
  ∀ (now : Nat) (image : List Byte),
    (image.length > 3584 → powerOn now image = .fault (.loadError image.length)) ∧
    (image.length ≤ 3584 → ∃ t, powerOn now image = .next t ∧ HasResetValues now t ∧ Memory.wf t.mem = true ∧
      ∀ a, a < 4096 → t.readByte a =
        if a < 80 then Config.font.getD a 0
        else if 0x200 ≤ a ∧ a < 0x200 + image.length then image.getD (a - 0x200) 0
        else 0)

/-- The reset state of the model is the power-on of an empty image at time 0 (the time and the host's fields are the
model's choice, log entries 2 to 4 and 15). -/
def Obligations.ResetStateIsEmptyPowerOn : Prop := powerOn 0 [] = .next State.reset

/-- Two canonical memories that read alike are the same list (the form is the model's own, log entry 10). -/
def Obligations.MemoryFormIsCanonical : Prop :=
  ∀ m m' : Memory, Memory.wf m = true → Memory.wf m' = true →
    (∀ a, a < 4096 → memRead m a = memRead m' a) → m = m'

/-- The invariant holds at reset. -/
def Obligations.InvariantHoldsAtReset : Prop := Inv State.reset

/-- The invariant holds after every load that succeeds. -/
def Obligations.InvariantHoldsAfterLoad : Prop :=
  ∀ (now : Nat) (image : List Byte) (t : State), powerOn now image = .next t → Inv t

/-- Every step keeps the invariant: an instruction, a poll, a tick, the timebase or a reset. Its clause on the form of
memory is the model's own (log entry 10). -/
def Obligations.StepKeepsInvariant : Prop :=
  ∀ s t : State, Inv s → step s = .next t → Inv t

/-! ### Whole-machine rules over the instructions -/

/-- An instruction writes only the registers and parts its rule names; all else is its frame. -/
def Obligations.InstructionsWriteOnlyTheirParts : Prop :=
  ∀ (i : Instr) (s t : State), exec i s = .next t → FrameBut (regsWritten i) (partsWritten i) s t

/-- Rule R54: an instruction that raises no fault takes one of its pc actions. -/
def Obligations.PcActionOfEachInstruction : Prop :=
  ∀ (i : Instr) (s t : State), s.mode = .running → exec i s = .next t → (∀ d, t.mode ≠ .halted d) →
    ∃ a ∈ pcActions i, PcAfter i s t a

/-- Only the keypad's instructions read the key sample (20_memory.md rule R28). -/
def Obligations.OnlyKeypadInstructionsReadKeys : Prop :=
  ∀ (i : Instr) (s t : State) (k : KeySample),
    (∀ x, i ≠ .skp x ∧ i ≠ .sknp x ∧ i ≠ .ldVK x) → exec i s = .next t →
      exec i { s with keys := k } = .next { t with keys := k }

/-- "no instruction reads it": what ST holds changes nothing but ST (10_state.md rule R21). -/
def Obligations.NoInstructionReadsSoundTimer : Prop :=
  ∀ (i : Instr) (s t : State) (v : Byte), exec i s = .next t →
    ((∀ x, i ≠ .ldStV x) → exec i { s with ST := v } = .next { t with ST := v }) ∧
    (∀ x, i = .ldStV x → exec i { s with ST := v } = .next t)

/-- A dead stack entry is not observable (10_state.md rule R18): two states that differ in dead entries only still do
after any instruction. -/
def Obligations.DeadStackEntriesAreUnobservable : Prop :=
  ∀ (i : Instr) (s t : State) (stack' : Vector Word 16),
    (∀ j : Fin 16, j.val < s.SP.val → stack'[j] = s.stack[j]) → exec i s = .next t →
      ∃ stack'', exec i { s with stack := stack' } = .next { t with stack := stack'' } ∧
        ∀ j : Fin 16, j.val < t.SP.val → stack''[j] = t.stack[j]

/-! ### Control flow -/

/-- Rule R61: SYS raises UnsupportedSys; with SYS_MODE = Nop it only advances. -/
def Obligations.SysRaisesUnsupportedSys : Prop :=
  (∀ (nnn : Addr12) (s : State),
    exec (.sys nnn) s = .next (haltedWith .unsupportedSys (some (BitVec.ofNat 16 nnn.toNat)) .none s)) ∧
  (∀ (p : Params) (nnn : Addr12) (s : State), p.sysMode = .nop →
    ∃ t, sysWith p nnn s = .next t ∧ Advanced 2 s t ∧ FrameBut [] [] s t)

/-- Rule R62. -/
def Obligations.JumpSetsPc : Prop :=
  ∀ (nnn : Addr12) (s : State), ∃ t, exec (.jp nnn) s = .next t ∧ t.pc.toNat = nnn.toNat ∧ FrameBut [] [] s t

/-- Rule R63: CALL pushes its own address, or overflows with 16 entries held. -/
def Obligations.CallPushesItsAddress : Prop :=
  ∀ (nnn : Addr12) (s : State),
    (s.SP.val < 16 → ∃ t, exec (.call nnn) s = .next t ∧ t.SP.val = s.SP.val + 1 ∧ t.pc.toNat = nnn.toNat ∧
      (∀ j : Fin 16, t.stack[j] = if j.val = s.SP.val then s.pc else s.stack[j]) ∧ FrameBut [] [.stack] s t) ∧
    (s.SP.val = 16 → exec (.call nnn) s =
      .next (haltedWith .stackOverflow (some (BitVec.ofNat 16 (0x2000 + nnn.toNat))) (.depth 16) s))

/-- Rule R64: RET resumes 2 past the popped address, or underflows on an empty stack; the entry stays. -/
def Obligations.ReturnPopsAndResumes : Prop :=
  ∀ s : State,
    (∀ j : Fin 16, s.SP.val = j.val + 1 → ∃ t, exec .ret s = .next t ∧ t.SP.val = j.val ∧ t.stack = s.stack ∧
      t.pc.toNat = (s.stack[j].toNat + 2) % 65536 ∧ FrameBut [] [.stack] s t) ∧
    (s.SP.val = 0 → exec .ret s = .next (haltedWith .stackUnderflow (some 0x00EE) (.depth 0) s))

/-- A CALL and the RET after it come back to the word after the CALL, at the depth before it. -/
def Obligations.CallThenReturnRoundTrip : Prop :=
  ∀ (nnn : Addr12) (s : State), s.SP.val < 16 →
    ∃ t u, exec (.call nnn) s = .next t ∧ exec .ret t = .next u ∧ u.SP = s.SP ∧ Advanced 2 s u ∧
      (∀ j : Fin 16, j.val < s.SP.val → u.stack[j] = s.stack[j]) ∧ FrameBut [] [.stack] s u

/-- Rule R65: the sum of nnn and V0 is not reduced to 12 bits. -/
def Obligations.IndexedJumpAddsV0 : Prop :=
  ∀ (nnn : Addr12) (s : State), ∃ t, exec (.jpV0 nnn) s = .next t ∧ t.pc.toNat = nnn.toNat + (s.getV 0).toNat ∧
    FrameBut [] [] s t

/-! ### Skips -/

/-- Rules R66 and R67. -/
def Obligations.ImmediateSkips : Prop :=
  ∀ (x : Reg) (kk : Byte) (s : State),
    (∃ t, exec (.seImm x kk) s = .next t ∧ Advanced (if s.getV x = kk then 4 else 2) s t ∧ FrameBut [] [] s t) ∧
    (∃ t, exec (.sneImm x kk) s = .next t ∧ Advanced (if s.getV x = kk then 2 else 4) s t ∧ FrameBut [] [] s t)

/-- Rules R68 and R69. -/
def Obligations.RegisterSkips : Prop :=
  ∀ (x y : Reg) (s : State),
    (∃ t, exec (.seReg x y) s = .next t ∧ Advanced (if s.getV x = s.getV y then 4 else 2) s t ∧ FrameBut [] [] s t) ∧
    (∃ t, exec (.sneReg x y) s = .next t ∧ Advanced (if s.getV x = s.getV y then 2 else 4) s t ∧ FrameBut [] [] s t)

/-! ### The ALU -/

/-- Rule R72. -/
def Obligations.RegisterCopy : Prop :=
  ∀ (x y : Reg) (s : State), ∃ t, exec (.ldReg x y) s = .next t ∧ t.getV x = s.getV y ∧ Advanced 2 s t ∧
    FrameBut [x] [] s t

/-- Rules R73, R74 and R75: VF is unchanged unless x = 15; with LOGIC_VF_RESET it ends as 0. -/
def Obligations.LogicInstructions : Prop :=
  (∀ (x y : Reg) (s : State),
    (∃ t, exec (.orReg x y) s = .next t ∧ t.getV x = (s.getV x ||| s.getV y) ∧ Advanced 2 s t ∧ FrameBut [x] [] s t) ∧
    (∃ t, exec (.andReg x y) s = .next t ∧ t.getV x = (s.getV x &&& s.getV y) ∧ Advanced 2 s t ∧ FrameBut [x] [] s t) ∧
    (∃ t, exec (.xorReg x y) s = .next t ∧ t.getV x = (s.getV x ^^^ s.getV y) ∧ Advanced 2 s t ∧ FrameBut [x] [] s t)) ∧
  (∀ (p : Params) (x y : Reg) (s : State), p.logicVfReset = true →
    (∃ t, orWith p x y s = .next t ∧ (x ≠ VF → t.getV x = (s.getV x ||| s.getV y)) ∧ t.getV VF = 0 ∧ Advanced 2 s t ∧
      FrameBut [x, VF] [] s t) ∧
    (∃ t, andWith p x y s = .next t ∧ (x ≠ VF → t.getV x = (s.getV x &&& s.getV y)) ∧ t.getV VF = 0 ∧ Advanced 2 s t ∧
      FrameBut [x, VF] [] s t) ∧
    (∃ t, xorWith p x y s = .next t ∧ (x ≠ VF → t.getV x = (s.getV x ^^^ s.getV y)) ∧ t.getV VF = 0 ∧ Advanced 2 s t ∧
      FrameBut [x, VF] [] s t))

/-- Rule R76: the low 8 bits of the sum, and VF = 1 iff it exceeds 255; with x = 15, VF ends as the carry. -/
def Obligations.AddReportsCarry : Prop :=
  ∀ (x y : Reg) (s : State), ∃ t, exec (.addReg x y) s = .next t ∧
    (x ≠ VF → (t.getV x).toNat = ((s.getV x).toNat + (s.getV y).toNat) % 256) ∧
    t.getV VF = (if (s.getV x).toNat + (s.getV y).toNat > 255 then 1 else 0) ∧ Advanced 2 s t ∧ FrameBut [x, VF] [] s t

/-- Rules R77 and R79: the wrapped difference, and VF = 1 iff no borrow occurred. -/
def Obligations.SubtractReportsNoBorrow : Prop :=
  ∀ (x y : Reg) (s : State),
    (∃ t, exec (.sub x y) s = .next t ∧
      (x ≠ VF → (t.getV x).toNat = (256 + (s.getV x).toNat - (s.getV y).toNat) % 256) ∧
      t.getV VF = (if (s.getV x).toNat ≥ (s.getV y).toNat then 1 else 0) ∧ Advanced 2 s t ∧ FrameBut [x, VF] [] s t) ∧
    (∃ t, exec (.subn x y) s = .next t ∧
      (x ≠ VF → (t.getV x).toNat = (256 + (s.getV y).toNat - (s.getV x).toNat) % 256) ∧
      t.getV VF = (if (s.getV y).toNat ≥ (s.getV x).toNat then 1 else 0) ∧ Advanced 2 s t ∧ FrameBut [x, VF] [] s t)

/-- Rules R78 and R80: a shift by one of V[x] (of V[y] with SHIFT_SOURCE = Vy), and VF = the bit shifted out. -/
def Obligations.ShiftsReportTheBitShiftedOut : Prop :=
  (∀ (x y : Reg) (s : State),
    (∃ t, exec (.shr x y) s = .next t ∧ (x ≠ VF → (t.getV x).toNat = (s.getV x).toNat / 2) ∧
      (t.getV VF).toNat = (s.getV x).toNat % 2 ∧ Advanced 2 s t ∧ FrameBut [x, VF] [] s t) ∧
    (∃ t, exec (.shl x y) s = .next t ∧ (x ≠ VF → (t.getV x).toNat = (s.getV x).toNat * 2 % 256) ∧
      (t.getV VF).toNat = (s.getV x).toNat / 128 ∧ Advanced 2 s t ∧ FrameBut [x, VF] [] s t)) ∧
  (∀ (p : Params) (x y : Reg) (s : State), p.shiftSource = .vy →
    (∃ t, shrWith p x y s = .next t ∧
      (x ≠ VF ∨ p.vfOrder = .resultLast → (t.getV x).toNat = (s.getV y).toNat / 2) ∧
      (x ≠ VF ∨ p.vfOrder = .flagLast → (t.getV VF).toNat = (s.getV y).toNat % 2) ∧
      Advanced 2 s t ∧ FrameBut [x, VF] [] s t) ∧
    (∃ t, shlWith p x y s = .next t ∧
      (x ≠ VF ∨ p.vfOrder = .resultLast → (t.getV x).toNat = (s.getV y).toNat * 2 % 256) ∧
      (x ≠ VF ∨ p.vfOrder = .flagLast → (t.getV VF).toNat = (s.getV y).toNat / 128) ∧
      Advanced 2 s t ∧ FrameBut [x, VF] [] s t))

/-- Rule R71: the two orders of writing differ only for x = 15, where VF ends as the flag under FlagLast and as the
result under ResultLast; with y = 15 the operand is VF before the instruction, and pc moves by 2, under either order. -/
def Obligations.FlagWriteOrder : Prop :=
  ∀ (f : Params → Reg → Reg → State → Host.Outcome State Fault Refusal) (res flag : Byte → Byte → Nat),
    (f, res, flag) ∈
      [(addWith, (fun a b => (a.toNat + b.toNat) % 256), (fun a b => if a.toNat + b.toNat > 255 then 1 else 0)),
       (subWith, (fun a b => (256 + a.toNat - b.toNat) % 256), (fun a b => if a.toNat ≥ b.toNat then 1 else 0)),
       (subnWith, (fun a b => (256 + b.toNat - a.toNat) % 256), (fun a b => if b.toNat ≥ a.toNat then 1 else 0)),
       (shrWith, (fun a _ => a.toNat / 2), (fun a _ => a.toNat % 2)),
       (shlWith, (fun a _ => a.toNat * 2 % 256), (fun a _ => a.toNat / 128))] →
    ∀ (p : Params) (x y : Reg) (s : State), p.shiftSource = .vx → ∃ t, f p x y s = .next t ∧
      (x ≠ VF → (t.getV x).toNat = res (s.getV x) (s.getV y) ∧ (t.getV VF).toNat = flag (s.getV x) (s.getV y)) ∧
      (x = VF → p.vfOrder = .flagLast → (t.getV VF).toNat = flag (s.getV x) (s.getV y)) ∧
      (x = VF → p.vfOrder = .resultLast → (t.getV VF).toNat = res (s.getV x) (s.getV y)) ∧
      Advanced 2 s t ∧ FrameBut [x, VF] [] s t

/-! ### Immediates and the random byte -/

/-- Rules R81 and R82: no flag; x = 15 writes VF as an ordinary register. -/
def Obligations.ImmediateLoadAndAdd : Prop :=
  ∀ (x : Reg) (kk : Byte) (s : State),
    (∃ t, exec (.ldImm x kk) s = .next t ∧ t.getV x = kk ∧ Advanced 2 s t ∧ FrameBut [x] [] s t) ∧
    (∃ t, exec (.addImm x kk) s = .next t ∧ (t.getV x).toNat = ((s.getV x).toNat + kk.toNat) % 256 ∧ Advanced 2 s t ∧
      FrameBut [x] [] s t)

/-- Rule R83. -/
def Obligations.LoadIndex : Prop :=
  ∀ (nnn : Addr12) (s : State), ∃ t, exec (.ldI nnn) s = .next t ∧ t.I.toNat = nnn.toNat ∧ Advanced 2 s t ∧
    FrameBut [] [.index] s t

/-- Rule R84: the host's byte of the step, masked; each execution makes one draw. Where the host's script gives no byte
it is the free byte of the draw (the model's choice, log entry 3). -/
def Obligations.RandomByteIsMasked : Prop :=
  ∀ (x : Reg) (kk : Byte) (s : State), ∃ t, exec (.rnd x kk) s = .next t ∧
    (∀ b, s.rnd = some b → t.getV x = (b &&& kk)) ∧ (s.rnd = none → t.getV x = (Config.freeRandom s.draws &&& kk)) ∧
    t.rnd = none ∧ t.draws = s.draws + 1 ∧ Advanced 2 s t ∧ FrameBut [x] [.random] s t

/-! ### The display -/

/-- Rule R87. -/
def Obligations.ClearTurnsEveryPixelOff : Prop :=
  ∀ s : State, ∃ t, exec .cls s = .next t ∧ (∀ x y, t.pixel x y = false) ∧ Advanced 2 s t ∧ FrameBut [] [.display] s t

/-- Rules R85, R86 and R88: a draw flips exactly the pixels its sprite hits inside the grid, at start coordinates that
are not reduced (with DRAW_START_WRAP, reduced modulo 64 and 32), and VF reports a collision; out of range it
halts with nothing changed. -/
def Obligations.DrawFlipsTheSpritesPixels : Prop :=
  (∀ (x y : Reg) (n : Fin 16) (s : State),
    (n.val = 0 ∨ s.I.toNat + n.val - 1 < 4096 → ∃ t, exec (.drw x y n) s = .next t ∧
      DrawEffect (s.getV x).toNat (s.getV y).toNat n.val s t ∧ Advanced 2 s t ∧ FrameBut [VF] [.display] s t) ∧
    (n.val > 0 → s.I.toNat + n.val - 1 ≥ 4096 → exec (.drw x y n) s = .next (haltedWith .memoryRangeIndex
      (some (BitVec.ofNat 16 (0xD000 + x.val * 256 + y.val * 16 + n.val))) (.address s.I) s))) ∧
  (∀ (p : Params) (x y : Reg) (n : Fin 16) (s : State), p.drawStartWrap = true →
    n.val = 0 ∨ s.I.toNat + n.val - 1 < 4096 → ∃ t, drwWith p x y n s = .next t ∧
      DrawEffect ((s.getV x).toNat % 64) ((s.getV y).toNat % 32) n.val s t ∧ Advanced 2 s t ∧
      FrameBut [VF] [.display] s t)

/-- Drawing the same sprite twice at the same place restores the framebuffer. The second draw reports a collision
exactly where the sprite hits a pixel that was dark before, which on a dark framebuffer is "any bit that lands on the
grid" (rule R88's corner case; log entry 9 says why the pixel must be dark). With x or y VF the first draw's flag moves
the place of the second, so those forms are not drawn twice at one place; the statement before this one covers them. -/
def Obligations.DrawingTwiceRestoresTheDisplay : Prop :=
  ∀ (x y : Reg) (n : Fin 16) (s : State), x ≠ VF → y ≠ VF → (n.val = 0 ∨ s.I.toNat + n.val - 1 < 4096) →
    ∃ t u, exec (.drw x y n) s = .next t ∧ exec (.drw x y n) t = .next u ∧
      (∀ X Y, u.pixel X Y = s.pixel X Y) ∧
      (u.getV VF = 1 ↔ ∃ (X : Fin 64) (Y : Fin 32),
        SpriteHits s (s.getV x).toNat (s.getV y).toNat n.val X Y ∧ s.pixel X Y = false)

/-! ### The keypad -/

/-- Rules R89, R90 and R91: the skip tests key V[x] of the sample; a number of 16 or more raises KeyRangeError, or
means key `V[x] & 0x0F` or no key, by KEY_RANGE_POLICY. -/
def Obligations.KeySkips : Prop :=
  (∀ (x : Reg) (s : State) (b : Bool), (s.getV x).toNat < 16 → b = s.keys.getLsbD (s.getV x).toNat →
    (∃ t, exec (.skp x) s = .next t ∧ Advanced (if b then 4 else 2) s t ∧ FrameBut [] [] s t) ∧
    (∃ t, exec (.sknp x) s = .next t ∧ Advanced (if b then 2 else 4) s t ∧ FrameBut [] [] s t)) ∧
  (∀ (x : Reg) (s : State), (s.getV x).toNat ≥ 16 →
    exec (.skp x) s = .next (haltedWith .keyRangeError (some (BitVec.ofNat 16 (0xE09E + x.val * 256)))
      (.key (s.getV x)) s) ∧
    exec (.sknp x) s = .next (haltedWith .keyRangeError (some (BitVec.ofNat 16 (0xE0A1 + x.val * 256)))
      (.key (s.getV x)) s)) ∧
  (∀ (p : Params) (x : Reg) (s : State) (b : Bool), (s.getV x).toNat ≥ 16 →
    (p.keyRangePolicy = .lowNibble ∧ b = s.keys.getLsbD ((s.getV x).toNat % 16)) ∨
      (p.keyRangePolicy = .notPressed ∧ b = false) →
    (∃ t, skpWith p x s = .next t ∧ Advanced (if b then 4 else 2) s t ∧ FrameBut [] [] s t) ∧
    (∃ t, sknpWith p x s = .next t ∧ Advanced (if b then 2 else 4) s t ∧ FrameBut [] [] s t))

/-- Rule R92: Fx0A enters Waiting with this step's sample, and holds pc. -/
def Obligations.KeyWaitHoldsPc : Prop :=
  ∀ (x : Reg) (s : State), ∃ t, exec (.ldVK x) s = .next t ∧ t.mode = .waiting x s.keys ∧ t.pc = s.pc ∧
    FrameBut [] [.mode] s t

/-- Rule R93: a poll ends the wait on the lowest key that went from released to pressed, and else remembers the
sample; it changes no state but mode, V[x] and pc (and the host's sample). -/
def Obligations.PollEndsOnTheLowestFreshKey : Prop :=
  ∀ (s u : State) (x : Reg) (prev keys : KeySample) (rnd : Option Byte),
    s.mode = .waiting x prev → NextInput s (.cycle keys rnd) u →
    (∀ k : Fin 16, (keys.getLsbD k.val = true ∧ prev.getLsbD k.val = false) →
      (∀ j : Fin 16, j < k → ¬ (keys.getLsbD j.val = true ∧ prev.getLsbD j.val = false)) →
      ∃ t, step s = .next t ∧ (t.getV x).toNat = k.val ∧ t.mode = .running ∧ Advanced 2 s t ∧
        FrameBut [x] [.mode, .host] s t ∧ FrameBut [x] [.mode] { u with keys := keys } t) ∧
    ((∀ k : Fin 16, ¬ (keys.getLsbD k.val = true ∧ prev.getLsbD k.val = false)) →
      step s = .next { u with mode := .waiting x keys, keys := keys })

/-! ### The timers -/

/-- Rules R94, R95 and R96. -/
def Obligations.TimerInstructions : Prop :=
  ∀ (x : Reg) (s : State),
    (∃ t, exec (.ldVDt x) s = .next t ∧ t.getV x = s.DT ∧ Advanced 2 s t ∧ FrameBut [x] [] s t) ∧
    (∃ t, exec (.ldDtV x) s = .next t ∧ t.DT = s.getV x ∧ Advanced 2 s t ∧ FrameBut [] [.delayTimer] s t) ∧
    (∃ t, exec (.ldStV x) s = .next t ∧ t.ST = s.getV x ∧ Advanced 2 s t ∧ FrameBut [] [.soundTimer] s t)

/-- Rule R109: a tick takes both timers one down with a floor at 0 and changes nothing else; it is enabled in Running,
in Waiting only with TIMERS_DURING_WAIT = Ticking, and never in Halted. That a tick which is not enabled is taken with
no effect is the model's choice (log entry 1). -/
def Obligations.TickCountsBothTimersDown : Prop :=
  (∀ s u : State, NextInput s .tick u →
    (s.mode = .running → ∃ t, step s = .next t ∧ t.DT.toNat = s.DT.toNat - 1 ∧ t.ST.toNat = s.ST.toNat - 1 ∧
      t.pc = s.pc ∧ FrameBut [] [.delayTimer, .soundTimer, .host] s t ∧ FrameBut [] [.delayTimer, .soundTimer] u t) ∧
    (s.mode ≠ .running → step s = .next u)) ∧
  (∀ (p : Params) (s : State) (x : Reg) (prev : KeySample), s.mode = .waiting x prev → p.timersDuringWait = .ticking →
    (hostTick p s).DT.toNat = s.DT.toNat - 1 ∧ (hostTick p s).ST.toNat = s.ST.toNat - 1 ∧ (hostTick p s).pc = s.pc ∧
      FrameBut [] [.delayTimer, .soundTimer] s (hostTick p s))

/-- Any number of ticks in Running takes a timer down by that number, and no lower than 0; so ten ticks or more
after DT = 10 leave it 0 (rule R111). -/
def Obligations.TicksReachZeroAndStay : Prop :=
  ∀ (n : Nat) (s : State) (rest : List Input), s.mode = .running → s.script = List.replicate n .tick ++ rest →
    ∃ t, Host.Core.run Sys2Proof.core n s = .next t ∧ t.DT.toNat = s.DT.toNat - n ∧ t.ST.toNat = s.ST.toNat - n ∧
      t.mode = .running ∧ t.script = rest

/-- Rule R110: the timebase gives one tick for each whole 1/60 s since the last tick and moves `t_last` by as much,
so what it does is so many ticks of the abstract model; where no tick is enabled, `t_last` follows `now`. Times are
in the model's unit (log entry 4), and the clock is one of the host's inputs (log entry 11). -/
def Obligations.TimebaseTicksOncePerInterval : Prop :=
  ∀ (s v : State) (now : Nat), NextInput s (.clock now) v →
    (s.mode = .running → ∃ t k u, step s = .next t ∧
      t.tLast = s.tLast + k * Config.tickInterval ∧ now < t.tLast + Config.tickInterval ∧
      (s.tLast ≤ now → t.tLast ≤ now) ∧ (now < s.tLast + Config.tickInterval → k = 0) ∧
      Host.Core.run Sys2Proof.core k { v with script := List.replicate k .tick ++ v.script } = .next u ∧
      t = { u with tLast := s.tLast + k * Config.tickInterval } ∧
      t.DT.toNat = s.DT.toNat - k ∧ t.ST.toNat = s.ST.toNat - k) ∧
    (s.mode ≠ .running → step s = .next { v with tLast := now })

/-! ### Index and memory blocks -/

/-- Rule R97: I is kept to 16 bits, and VF is unchanged. -/
def Obligations.AddToIndexWraps : Prop :=
  ∀ (x : Reg) (s : State), ∃ t, exec (.addI x) s = .next t ∧ t.I.toNat = (s.I.toNat + (s.getV x).toNat) % 65536 ∧
    Advanced 2 s t ∧ FrameBut [] [.index] s t

/-- Rule R98: the glyph of the low nibble. -/
def Obligations.GlyphAddressOfLowNibble : Prop :=
  ∀ (x : Reg) (s : State), ∃ t, exec (.ldF x) s = .next t ∧ t.I.toNat = 5 * ((s.getV x).toNat % 16) ∧
    Advanced 2 s t ∧ FrameBut [] [.index] s t

/-- Rule R99: hundreds, tens and ones at I, I + 1 and I + 2, and no other byte; out of range nothing is written. The
premise on memory is the model's canonical form (log entry 10), which `StepKeepsInvariant` says every step keeps. -/
def Obligations.BcdStoresThreeDigits : Prop :=
  ∀ (x : Reg) (s : State), Memory.wf s.mem = true →
    (s.I.toNat + 2 < 4096 → ∃ t, exec (.ldB x) s = .next t ∧
      (t.readByte s.I.toNat).toNat = (s.getV x).toNat / 100 ∧
      (t.readByte (s.I.toNat + 1)).toNat = (s.getV x).toNat / 10 % 10 ∧
      (t.readByte (s.I.toNat + 2)).toNat = (s.getV x).toNat % 10 ∧
      (∀ a, a < s.I.toNat ∨ a > s.I.toNat + 2 → t.readByte a = s.readByte a) ∧
      Advanced 2 s t ∧ FrameBut [] [.memory] s t) ∧
    (s.I.toNat + 2 ≥ 4096 → exec (.ldB x) s = .next (haltedWith .memoryRangeIndex
      (some (BitVec.ofNat 16 (0xF033 + x.val * 256))) (.address s.I) s))

/-- Rule R100: V0 to Vx at I to I + x, and no other byte; I is unchanged (with BLOCK_I_INCREMENT it is I + x + 1);
out of range nothing is written. The premise on memory is as in
`BcdStoresThreeDigits`. -/
def Obligations.BlockStoreWritesEachRegister : Prop :=
  (∀ (x : Reg) (s : State), Memory.wf s.mem = true →
    (s.I.toNat + x.val < 4096 → ∃ t, exec (.stRegs x) s = .next t ∧
      (∀ k : Reg, k ≤ x → t.readByte (s.I.toNat + k.val) = s.getV k) ∧
      (∀ a, a < s.I.toNat ∨ a > s.I.toNat + x.val → t.readByte a = s.readByte a) ∧
      Advanced 2 s t ∧ FrameBut [] [.memory] s t) ∧
    (s.I.toNat + x.val ≥ 4096 → exec (.stRegs x) s = .next (haltedWith .memoryRangeIndex
      (some (BitVec.ofNat 16 (0xF055 + x.val * 256))) (.address s.I) s))) ∧
  (∀ (p : Params) (x : Reg) (s : State), p.blockIIncrement = true → s.I.toNat + x.val < 4096 →
    ∃ t u, exec (.stRegs x) s = .next t ∧ stRegsWith p x s = .next u ∧
      u = { t with I := BitVec.ofNat 16 (s.I.toNat + x.val + 1) })

/-- Rule R101: V0 to Vx from I to I + x, and no other register; I is unchanged (with BLOCK_I_INCREMENT it is
I + x + 1); out of range nothing is written. -/
def Obligations.BlockLoadReadsEachRegister : Prop :=
  (∀ (x : Reg) (s : State),
    (s.I.toNat + x.val < 4096 → ∃ t, exec (.ldRegs x) s = .next t ∧
      (∀ k : Reg, k ≤ x → t.getV k = s.readByte (s.I.toNat + k.val)) ∧ (∀ k : Reg, k > x → t.getV k = s.getV k) ∧
      Advanced 2 s t ∧ FrameBut ((List.finRange 16).filter (fun k => k ≤ x)) [] s t) ∧
    (s.I.toNat + x.val ≥ 4096 → exec (.ldRegs x) s = .next (haltedWith .memoryRangeIndex
      (some (BitVec.ofNat 16 (0xF065 + x.val * 256))) (.address s.I) s))) ∧
  (∀ (p : Params) (x : Reg) (s : State), p.blockIIncrement = true → s.I.toNat + x.val < 4096 →
    ∃ t u, exec (.ldRegs x) s = .next t ∧ ldRegsWith p x s = .next u ∧
      u = { t with I := BitVec.ofNat 16 (s.I.toNat + x.val + 1) })

/-- Rule R37: what Fx55 stores at the next instruction's address is what the next step fetches. In what state that step
begins is the model's choice: the host's input taken, or, with none to come, the core going on by itself with a free
random byte (log entry 1); so is the form memory is in (log entry 10). -/
def Obligations.StoredWordIsFetchedNext : Prop :=
  ∀ (s : State) (x k : Reg) (i : Instr), Memory.wf s.mem = true → s.mode = .running →
    s.I.toNat + x.val < 4096 → k < x → s.I.toNat + k.val = s.pc.toNat + 2 →
    decodeWord (BitVec.ofNat 16 ((s.getV k).toNat * 256 + (s.getV (k + 1)).toNat)) = .ok i →
    ∃ t, exec (.stRegs x) s = .next t ∧ ∀ u, CycleStart t u → step t = exec i u

/-! ### Runs without end, and the form of memory -/

/-- Rule R57: ticks may recur for ever with no instruction step while the core is Running; instruction steps may go on
for ever with no tick while DT > 0 (a jump to its own address is such a run, rule R60); and under the two fairness
premises, with no step that raises DT from some point on in Running, DT reaches 0 and stays. How a state says what its
host does without end is the model's choice (log entry 15). -/
def Obligations.ProgressNeedsFairness : Prop :=
  (∀ (s : State) (n : Nat), s.mode = .running → s.script = [] → s.plan = .repeats .tick [] →
    ∃ t, Host.Core.run Sys2Proof.core n s = .next t ∧ t.pc = s.pc ∧ t.DT.toNat = s.DT.toNat - n ∧
      t.ST.toNat = s.ST.toNat - n ∧ FrameBut [] [.delayTimer, .soundTimer] s t) ∧
  (∀ (s : State) (n : Nat) (nnn : Addr12), s.mode = .running → NoInput s → s.pc.toNat = nnn.toNat →
    s.pc.toNat + 1 < 4096 → decodeWord (fetchWord s) = .ok (.jp nnn) →
    ∃ t, Host.Core.run Sys2Proof.core n s = .next t ∧ t.pc = s.pc ∧ FrameBut [] [.random] s t) ∧
  (∀ (r : Nat → State) (n : Nat), FairRun r →
    (∀ m, n ≤ m → (r m).mode = .running ∧ (r (m + 1)).DT.toNat ≤ (r m).DT.toNat) →
    ∃ m, n ≤ m ∧ ∀ k, m ≤ k → (r k).DT = 0)

/-- No instruction takes memory out of its canonical form (the form is the model's own, log entry 10). -/
def Obligations.InstructionsKeepMemoryCanonical : Prop :=
  ∀ (i : Instr) (s t : State), Memory.wf s.mem = true → exec i s = .next t → Memory.wf t.mem = true
end

