-- ==== Sys2Proof/Laws/Decode.lean ====
section
/-! SUPPORT. The operand fields of an encoded word, and of a word in arithmetic: what decode and encode proofs cite. -/

namespace Sys2Proof

/-! ### Fields in arithmetic -/

theorem fieldGroup_toNat (w : Word) : (fieldGroup w).toNat = w.toNat / 4096 := by
  have := w.isLt
  simp [fieldGroup, BitVec.extractLsb'_toNat, Nat.shiftRight_eq_div_pow]; omega

theorem fieldX_val (w : Word) : (fieldX w).val = w.toNat / 256 % 16 := by
  simp [fieldX, Nat.shiftRight_eq_div_pow]

theorem fieldY_val (w : Word) : (fieldY w).val = w.toNat / 16 % 16 := by
  simp [fieldY, Nat.shiftRight_eq_div_pow]

theorem fieldN_val (w : Word) : (fieldN w).val = w.toNat % 16 := by
  simp [fieldN]

theorem fieldKK_toNat (w : Word) : (fieldKK w).toNat = w.toNat % 256 := by
  simp [fieldKK, BitVec.extractLsb'_toNat]

theorem fieldNNN_toNat (w : Word) : (fieldNNN w).toNat = w.toNat % 4096 := by
  simp [fieldNNN, BitVec.extractLsb'_toNat]

theorem wordOfBytes_toNat (hi lo : Byte) : (wordOfBytes hi lo).toNat = hi.toNat * 256 + lo.toNat := by
  have := lo.isLt
  simp only [wordOfBytes, BitVec.toNat_append]
  rw [← Nat.shiftLeft_add_eq_or_of_lt (by omega), Nat.shiftLeft_eq]

/-- The bytes of a word make the word. -/
theorem wordOfBytes_bytesOfWord (w : Word) : wordOfBytes (highByte w) (lowByte w) = w := by
  apply BitVec.eq_of_toNat_eq
  have := w.isLt
  simp [wordOfBytes_toNat, highByte, lowByte, BitVec.extractLsb'_toNat, Nat.shiftRight_eq_div_pow]; omega

/-! ### Words in arithmetic -/

@[simp] theorem byte_lt (v : Byte) : v.toNat < 256 := v.isLt

@[simp] theorem addr12_lt (a : Addr12) : a.toNat < 4096 := a.isLt

theorem wordXYN_toNat {g n : Nat} (x y : Fin 16) (hg : g < 16) (hn : n < 16) :
    (wordXYN g x y n).toNat = g * 4096 + x.val * 256 + y.val * 16 + n := by
  simp [wordXYN]; omega

theorem wordXKK_toNat {g kk : Nat} (x : Fin 16) (hg : g < 16) (hk : kk < 256) :
    (wordXKK g x kk).toNat = g * 4096 + x.val * 256 + kk := by
  simp [wordXKK]; omega

theorem wordNNN_toNat {g nnn : Nat} (hg : g < 16) (hn : nnn < 4096) : (wordNNN g nnn).toNat = g * 4096 + nnn := by
  simp [wordNNN]; omega

/-! ### The fields of an encoded word -/

section Fields
variable {g k : Nat} (x y n : Fin 16) (kk : Byte) (nnn : Addr12)

@[simp] theorem fieldGroup_wordXYN (hg : g < 16) (hk : k < 16) : (fieldGroup (wordXYN g x y k)).toNat = g := by
  rw [fieldGroup_toNat, wordXYN_toNat x y hg hk]; omega

@[simp] theorem fieldX_wordXYN (hg : g < 16) (hk : k < 16) : fieldX (wordXYN g x y k) = x := by
  apply Fin.ext; rw [fieldX_val, wordXYN_toNat x y hg hk]; omega

@[simp] theorem fieldY_wordXYN (hg : g < 16) (hk : k < 16) : fieldY (wordXYN g x y k) = y := by
  apply Fin.ext; rw [fieldY_val, wordXYN_toNat x y hg hk]; omega

@[simp] theorem fieldN_val_wordXYN (hg : g < 16) (hk : k < 16) : (fieldN (wordXYN g x y k)).val = k := by
  rw [fieldN_val, wordXYN_toNat x y hg hk]; omega

@[simp] theorem fieldN_wordXYN (hg : g < 16) : fieldN (wordXYN g x y n) = n :=
  Fin.ext (fieldN_val_wordXYN x y hg n.isLt)

@[simp] theorem fieldGroup_wordXKK (hg : g < 16) (hk : k < 256) : (fieldGroup (wordXKK g x k)).toNat = g := by
  rw [fieldGroup_toNat, wordXKK_toNat x hg hk]; omega

@[simp] theorem fieldX_wordXKK (hg : g < 16) (hk : k < 256) : fieldX (wordXKK g x k) = x := by
  apply Fin.ext; rw [fieldX_val, wordXKK_toNat x hg hk]; omega

@[simp] theorem fieldKK_wordXKK_toNat (hg : g < 16) (hk : k < 256) : (fieldKK (wordXKK g x k)).toNat = k := by
  rw [fieldKK_toNat, wordXKK_toNat x hg hk]; omega

@[simp] theorem fieldKK_wordXKK (hg : g < 16) : fieldKK (wordXKK g x kk.toNat) = kk := by
  apply BitVec.eq_of_toNat_eq; exact fieldKK_wordXKK_toNat x hg kk.isLt

@[simp] theorem fieldGroup_wordNNN (hg : g < 16) : (fieldGroup (wordNNN g nnn.toNat)).toNat = g := by
  have := nnn.isLt
  rw [fieldGroup_toNat, wordNNN_toNat hg nnn.isLt]; omega

@[simp] theorem fieldNNN_wordNNN (hg : g < 16) : fieldNNN (wordNNN g nnn.toNat) = nnn := by
  have := nnn.isLt
  apply BitVec.eq_of_toNat_eq; rw [fieldNNN_toNat, wordNNN_toNat hg nnn.isLt]; omega

end Fields

/-! ### The masks of the opcode table -/

theorem and_mask_group (w : Word) : w &&& 0xF000#16 = BitVec.ofNat 16 (w.toNat / 4096 * 4096) := by
  have h : w &&& 0xF000#16 = (w >>> 12) <<< 12 := by
    ext i hi
    interval_cases i <;> simp
  rw [h]; apply BitVec.eq_of_toNat_eq
  simp [Nat.shiftRight_eq_div_pow, Nat.shiftLeft_eq]

theorem and_mask_low {w : Word} {k : Nat} {m : Word} (hm : m.toNat = 2 ^ k - 1) :
    w &&& m = BitVec.ofNat 16 (w.toNat % 2 ^ k) := by
  apply BitVec.eq_of_toNat_eq
  have hw := w.isLt
  have : w.toNat % 2 ^ k ≤ w.toNat := Nat.mod_le _ _
  have hlt : w.toNat % 2 ^ k < 2 ^ 16 := Nat.lt_of_le_of_lt this hw
  rw [BitVec.toNat_and, hm, Nat.and_two_pow_sub_one_eq_mod, BitVec.toNat_ofNat, Nat.mod_eq_of_lt hlt]

/-- A mask of the group and of the `k` low bits. -/
theorem and_mask_both {w : Word} {k : Nat} {m : Word} (hk : k ≤ 12) (hm : m.toNat = 2 ^ k - 1) :
    w &&& (0xF000#16 ||| m) = BitVec.ofNat 16 (w.toNat / 4096 * 4096 + w.toNat % 2 ^ k) := by
  have hd : (0xF000#16 &&& m) = 0#16 := by
    apply BitVec.eq_of_toNat_eq
    rw [and_mask_low hm]
    have : (0xF000 : Nat) % 2 ^ k = 0 := by interval_cases k <;> rfl
    simp [this]
  have : w &&& (0xF000#16 ||| m) = (w &&& 0xF000#16) + (w &&& m) := by
    rw [BitVec.add_eq_or_of_and_eq_zero]
    · exact BitVec.and_or_distrib_left
    · rw [show w &&& 0xF000#16 &&& (w &&& m) = w &&& (0xF000#16 &&& m) by
        ext i hi; simp only [BitVec.getElem_and]; cases w[i] <;> simp]
      rw [hd, BitVec.and_zero]
  rw [this, and_mask_group, and_mask_low hm, ← BitVec.ofNat_add]

/-! ### Matching a row -/

theorem accepts_iff (r : OpRow) (w : Word) :
    r.accepts w = true ↔ w &&& r.mask = r.pattern ∧ w ∉ r.excludes := by
  simp [OpRow.accepts]

theorem and_F000 (w : Word) : (w &&& 0xF000#16).toNat = w.toNat / 4096 * 4096 := by
  have := w.isLt
  rw [and_mask_group, BitVec.toNat_ofNat]; omega

theorem and_F00F (w : Word) : (w &&& 0xF00F#16).toNat = w.toNat / 4096 * 4096 + w.toNat % 16 := by
  have := w.isLt
  have h := and_mask_both (w := w) (k := 4) (m := 0xF#16) (by omega) rfl
  rw [show (0xF00F#16) = 0xF000#16 ||| 0xF#16 from rfl, h, BitVec.toNat_ofNat]; omega

theorem and_F0FF (w : Word) : (w &&& 0xF0FF#16).toNat = w.toNat / 4096 * 4096 + w.toNat % 256 := by
  have := w.isLt
  have h := and_mask_both (w := w) (k := 8) (m := 0xFF#16) (by omega) rfl
  rw [show (0xF0FF#16) = 0xF000#16 ||| 0xFF#16 from rfl, h, BitVec.toNat_ofNat]; omega

theorem and_FFFF (w : Word) : w &&& 0xFFFF#16 = w := by
  have : (0xFFFF#16) = BitVec.allOnes 16 := rfl
  rw [this, BitVec.and_allOnes]

end Sys2Proof
end

