-- ==== Sys2Proof/Laws/State.lean ====
section
/-! SUPPORT. What each update of State does to each field: one lemma per field per update, all by rfl, so that no
later proof unfolds a record update. -/

namespace Sys2Proof.Machine

section SetV
variable (s : State) (r : Reg) (v : Byte)

@[simp] theorem setV_V : (s.setV r v).V = s.V.set r v := rfl
@[simp] theorem setV_I : (s.setV r v).I = s.I := rfl
@[simp] theorem setV_pc : (s.setV r v).pc = s.pc := rfl
@[simp] theorem setV_stack : (s.setV r v).stack = s.stack := rfl
@[simp] theorem setV_SP : (s.setV r v).SP = s.SP := rfl
@[simp] theorem setV_DT : (s.setV r v).DT = s.DT := rfl
@[simp] theorem setV_ST : (s.setV r v).ST = s.ST := rfl
@[simp] theorem setV_fb : (s.setV r v).fb = s.fb := rfl
@[simp] theorem setV_mode : (s.setV r v).mode = s.mode := rfl
@[simp] theorem setV_tLast : (s.setV r v).tLast = s.tLast := rfl
@[simp] theorem setV_mem : (s.setV r v).mem = s.mem := rfl
@[simp] theorem setV_keys : (s.setV r v).keys = s.keys := rfl
@[simp] theorem setV_rnd : (s.setV r v).rnd = s.rnd := rfl
@[simp] theorem setV_draws : (s.setV r v).draws = s.draws := rfl
@[simp] theorem setV_script : (s.setV r v).script = s.script := rfl
@[simp] theorem setV_plan : (s.setV r v).plan = s.plan := rfl
@[simp] theorem setV_taken : (s.setV r v).taken = s.taken := rfl

end SetV

section SetRegFile
variable (s : State) (regs : Vector Byte 16)

@[simp] theorem setRegFile_V : (s.setRegFile regs).V = regs := rfl
@[simp] theorem setRegFile_I : (s.setRegFile regs).I = s.I := rfl
@[simp] theorem setRegFile_pc : (s.setRegFile regs).pc = s.pc := rfl
@[simp] theorem setRegFile_stack : (s.setRegFile regs).stack = s.stack := rfl
@[simp] theorem setRegFile_SP : (s.setRegFile regs).SP = s.SP := rfl
@[simp] theorem setRegFile_DT : (s.setRegFile regs).DT = s.DT := rfl
@[simp] theorem setRegFile_ST : (s.setRegFile regs).ST = s.ST := rfl
@[simp] theorem setRegFile_fb : (s.setRegFile regs).fb = s.fb := rfl
@[simp] theorem setRegFile_mode : (s.setRegFile regs).mode = s.mode := rfl
@[simp] theorem setRegFile_tLast : (s.setRegFile regs).tLast = s.tLast := rfl
@[simp] theorem setRegFile_mem : (s.setRegFile regs).mem = s.mem := rfl
@[simp] theorem setRegFile_keys : (s.setRegFile regs).keys = s.keys := rfl
@[simp] theorem setRegFile_rnd : (s.setRegFile regs).rnd = s.rnd := rfl
@[simp] theorem setRegFile_draws : (s.setRegFile regs).draws = s.draws := rfl
@[simp] theorem setRegFile_script : (s.setRegFile regs).script = s.script := rfl
@[simp] theorem setRegFile_plan : (s.setRegFile regs).plan = s.plan := rfl
@[simp] theorem setRegFile_taken : (s.setRegFile regs).taken = s.taken := rfl

end SetRegFile

section SetI
variable (s : State) (a : Word)

@[simp] theorem setI_V : (s.setI a).V = s.V := rfl
@[simp] theorem setI_I : (s.setI a).I = a := rfl
@[simp] theorem setI_pc : (s.setI a).pc = s.pc := rfl
@[simp] theorem setI_stack : (s.setI a).stack = s.stack := rfl
@[simp] theorem setI_SP : (s.setI a).SP = s.SP := rfl
@[simp] theorem setI_DT : (s.setI a).DT = s.DT := rfl
@[simp] theorem setI_ST : (s.setI a).ST = s.ST := rfl
@[simp] theorem setI_fb : (s.setI a).fb = s.fb := rfl
@[simp] theorem setI_mode : (s.setI a).mode = s.mode := rfl
@[simp] theorem setI_tLast : (s.setI a).tLast = s.tLast := rfl
@[simp] theorem setI_mem : (s.setI a).mem = s.mem := rfl
@[simp] theorem setI_keys : (s.setI a).keys = s.keys := rfl
@[simp] theorem setI_rnd : (s.setI a).rnd = s.rnd := rfl
@[simp] theorem setI_draws : (s.setI a).draws = s.draws := rfl
@[simp] theorem setI_script : (s.setI a).script = s.script := rfl
@[simp] theorem setI_plan : (s.setI a).plan = s.plan := rfl
@[simp] theorem setI_taken : (s.setI a).taken = s.taken := rfl

end SetI

section SetPc
variable (s : State) (a : Word)

@[simp] theorem setPc_V : (s.setPc a).V = s.V := rfl
@[simp] theorem setPc_I : (s.setPc a).I = s.I := rfl
@[simp] theorem setPc_pc : (s.setPc a).pc = a := rfl
@[simp] theorem setPc_stack : (s.setPc a).stack = s.stack := rfl
@[simp] theorem setPc_SP : (s.setPc a).SP = s.SP := rfl
@[simp] theorem setPc_DT : (s.setPc a).DT = s.DT := rfl
@[simp] theorem setPc_ST : (s.setPc a).ST = s.ST := rfl
@[simp] theorem setPc_fb : (s.setPc a).fb = s.fb := rfl
@[simp] theorem setPc_mode : (s.setPc a).mode = s.mode := rfl
@[simp] theorem setPc_tLast : (s.setPc a).tLast = s.tLast := rfl
@[simp] theorem setPc_mem : (s.setPc a).mem = s.mem := rfl
@[simp] theorem setPc_keys : (s.setPc a).keys = s.keys := rfl
@[simp] theorem setPc_rnd : (s.setPc a).rnd = s.rnd := rfl
@[simp] theorem setPc_draws : (s.setPc a).draws = s.draws := rfl
@[simp] theorem setPc_script : (s.setPc a).script = s.script := rfl
@[simp] theorem setPc_plan : (s.setPc a).plan = s.plan := rfl
@[simp] theorem setPc_taken : (s.setPc a).taken = s.taken := rfl

end SetPc

section Advance
variable (s : State) (k : Nat)

@[simp] theorem advance_V : (s.advance k).V = s.V := rfl
@[simp] theorem advance_I : (s.advance k).I = s.I := rfl
@[simp] theorem advance_pc : (s.advance k).pc = BitVec.ofNat 16 (s.pc.toNat + k) := rfl
@[simp] theorem advance_stack : (s.advance k).stack = s.stack := rfl
@[simp] theorem advance_SP : (s.advance k).SP = s.SP := rfl
@[simp] theorem advance_DT : (s.advance k).DT = s.DT := rfl
@[simp] theorem advance_ST : (s.advance k).ST = s.ST := rfl
@[simp] theorem advance_fb : (s.advance k).fb = s.fb := rfl
@[simp] theorem advance_mode : (s.advance k).mode = s.mode := rfl
@[simp] theorem advance_tLast : (s.advance k).tLast = s.tLast := rfl
@[simp] theorem advance_mem : (s.advance k).mem = s.mem := rfl
@[simp] theorem advance_keys : (s.advance k).keys = s.keys := rfl
@[simp] theorem advance_rnd : (s.advance k).rnd = s.rnd := rfl
@[simp] theorem advance_draws : (s.advance k).draws = s.draws := rfl
@[simp] theorem advance_script : (s.advance k).script = s.script := rfl
@[simp] theorem advance_plan : (s.advance k).plan = s.plan := rfl
@[simp] theorem advance_taken : (s.advance k).taken = s.taken := rfl

end Advance

section SetDT
variable (s : State) (v : Byte)

@[simp] theorem setDT_V : (s.setDT v).V = s.V := rfl
@[simp] theorem setDT_I : (s.setDT v).I = s.I := rfl
@[simp] theorem setDT_pc : (s.setDT v).pc = s.pc := rfl
@[simp] theorem setDT_stack : (s.setDT v).stack = s.stack := rfl
@[simp] theorem setDT_SP : (s.setDT v).SP = s.SP := rfl
@[simp] theorem setDT_DT : (s.setDT v).DT = v := rfl
@[simp] theorem setDT_ST : (s.setDT v).ST = s.ST := rfl
@[simp] theorem setDT_fb : (s.setDT v).fb = s.fb := rfl
@[simp] theorem setDT_mode : (s.setDT v).mode = s.mode := rfl
@[simp] theorem setDT_tLast : (s.setDT v).tLast = s.tLast := rfl
@[simp] theorem setDT_mem : (s.setDT v).mem = s.mem := rfl
@[simp] theorem setDT_keys : (s.setDT v).keys = s.keys := rfl
@[simp] theorem setDT_rnd : (s.setDT v).rnd = s.rnd := rfl
@[simp] theorem setDT_draws : (s.setDT v).draws = s.draws := rfl
@[simp] theorem setDT_script : (s.setDT v).script = s.script := rfl
@[simp] theorem setDT_plan : (s.setDT v).plan = s.plan := rfl
@[simp] theorem setDT_taken : (s.setDT v).taken = s.taken := rfl

end SetDT

section SetST
variable (s : State) (v : Byte)

@[simp] theorem setST_V : (s.setST v).V = s.V := rfl
@[simp] theorem setST_I : (s.setST v).I = s.I := rfl
@[simp] theorem setST_pc : (s.setST v).pc = s.pc := rfl
@[simp] theorem setST_stack : (s.setST v).stack = s.stack := rfl
@[simp] theorem setST_SP : (s.setST v).SP = s.SP := rfl
@[simp] theorem setST_DT : (s.setST v).DT = s.DT := rfl
@[simp] theorem setST_ST : (s.setST v).ST = v := rfl
@[simp] theorem setST_fb : (s.setST v).fb = s.fb := rfl
@[simp] theorem setST_mode : (s.setST v).mode = s.mode := rfl
@[simp] theorem setST_tLast : (s.setST v).tLast = s.tLast := rfl
@[simp] theorem setST_mem : (s.setST v).mem = s.mem := rfl
@[simp] theorem setST_keys : (s.setST v).keys = s.keys := rfl
@[simp] theorem setST_rnd : (s.setST v).rnd = s.rnd := rfl
@[simp] theorem setST_draws : (s.setST v).draws = s.draws := rfl
@[simp] theorem setST_script : (s.setST v).script = s.script := rfl
@[simp] theorem setST_plan : (s.setST v).plan = s.plan := rfl
@[simp] theorem setST_taken : (s.setST v).taken = s.taken := rfl

end SetST

section SetMode
variable (s : State) (m : Mode)

@[simp] theorem setMode_V : (s.setMode m).V = s.V := rfl
@[simp] theorem setMode_I : (s.setMode m).I = s.I := rfl
@[simp] theorem setMode_pc : (s.setMode m).pc = s.pc := rfl
@[simp] theorem setMode_stack : (s.setMode m).stack = s.stack := rfl
@[simp] theorem setMode_SP : (s.setMode m).SP = s.SP := rfl
@[simp] theorem setMode_DT : (s.setMode m).DT = s.DT := rfl
@[simp] theorem setMode_ST : (s.setMode m).ST = s.ST := rfl
@[simp] theorem setMode_fb : (s.setMode m).fb = s.fb := rfl
@[simp] theorem setMode_mode : (s.setMode m).mode = m := rfl
@[simp] theorem setMode_tLast : (s.setMode m).tLast = s.tLast := rfl
@[simp] theorem setMode_mem : (s.setMode m).mem = s.mem := rfl
@[simp] theorem setMode_keys : (s.setMode m).keys = s.keys := rfl
@[simp] theorem setMode_rnd : (s.setMode m).rnd = s.rnd := rfl
@[simp] theorem setMode_draws : (s.setMode m).draws = s.draws := rfl
@[simp] theorem setMode_script : (s.setMode m).script = s.script := rfl
@[simp] theorem setMode_plan : (s.setMode m).plan = s.plan := rfl
@[simp] theorem setMode_taken : (s.setMode m).taken = s.taken := rfl

end SetMode

section SetFb
variable (s : State) (f : Framebuffer)

@[simp] theorem setFb_V : (s.setFb f).V = s.V := rfl
@[simp] theorem setFb_I : (s.setFb f).I = s.I := rfl
@[simp] theorem setFb_pc : (s.setFb f).pc = s.pc := rfl
@[simp] theorem setFb_stack : (s.setFb f).stack = s.stack := rfl
@[simp] theorem setFb_SP : (s.setFb f).SP = s.SP := rfl
@[simp] theorem setFb_DT : (s.setFb f).DT = s.DT := rfl
@[simp] theorem setFb_ST : (s.setFb f).ST = s.ST := rfl
@[simp] theorem setFb_fb : (s.setFb f).fb = f := rfl
@[simp] theorem setFb_mode : (s.setFb f).mode = s.mode := rfl
@[simp] theorem setFb_tLast : (s.setFb f).tLast = s.tLast := rfl
@[simp] theorem setFb_mem : (s.setFb f).mem = s.mem := rfl
@[simp] theorem setFb_keys : (s.setFb f).keys = s.keys := rfl
@[simp] theorem setFb_rnd : (s.setFb f).rnd = s.rnd := rfl
@[simp] theorem setFb_draws : (s.setFb f).draws = s.draws := rfl
@[simp] theorem setFb_script : (s.setFb f).script = s.script := rfl
@[simp] theorem setFb_plan : (s.setFb f).plan = s.plan := rfl
@[simp] theorem setFb_taken : (s.setFb f).taken = s.taken := rfl

end SetFb

section SetMem
variable (s : State) (m : Memory)

@[simp] theorem setMem_V : (s.setMem m).V = s.V := rfl
@[simp] theorem setMem_I : (s.setMem m).I = s.I := rfl
@[simp] theorem setMem_pc : (s.setMem m).pc = s.pc := rfl
@[simp] theorem setMem_stack : (s.setMem m).stack = s.stack := rfl
@[simp] theorem setMem_SP : (s.setMem m).SP = s.SP := rfl
@[simp] theorem setMem_DT : (s.setMem m).DT = s.DT := rfl
@[simp] theorem setMem_ST : (s.setMem m).ST = s.ST := rfl
@[simp] theorem setMem_fb : (s.setMem m).fb = s.fb := rfl
@[simp] theorem setMem_mode : (s.setMem m).mode = s.mode := rfl
@[simp] theorem setMem_tLast : (s.setMem m).tLast = s.tLast := rfl
@[simp] theorem setMem_mem : (s.setMem m).mem = m := rfl
@[simp] theorem setMem_keys : (s.setMem m).keys = s.keys := rfl
@[simp] theorem setMem_rnd : (s.setMem m).rnd = s.rnd := rfl
@[simp] theorem setMem_draws : (s.setMem m).draws = s.draws := rfl
@[simp] theorem setMem_script : (s.setMem m).script = s.script := rfl
@[simp] theorem setMem_plan : (s.setMem m).plan = s.plan := rfl
@[simp] theorem setMem_taken : (s.setMem m).taken = s.taken := rfl

end SetMem

section PushReturn
variable (s : State) (a : Word)

@[simp] theorem pushReturn_V : (s.pushReturn a).V = s.V := rfl
@[simp] theorem pushReturn_I : (s.pushReturn a).I = s.I := rfl
@[simp] theorem pushReturn_pc : (s.pushReturn a).pc = s.pc := rfl
@[simp] theorem pushReturn_stack : (s.pushReturn a).stack = s.stack.setIfInBounds s.SP.val a := rfl
@[simp] theorem pushReturn_SP : (s.pushReturn a).SP = Fin.ofNat 17 (s.SP.val + 1) := rfl
@[simp] theorem pushReturn_DT : (s.pushReturn a).DT = s.DT := rfl
@[simp] theorem pushReturn_ST : (s.pushReturn a).ST = s.ST := rfl
@[simp] theorem pushReturn_fb : (s.pushReturn a).fb = s.fb := rfl
@[simp] theorem pushReturn_mode : (s.pushReturn a).mode = s.mode := rfl
@[simp] theorem pushReturn_tLast : (s.pushReturn a).tLast = s.tLast := rfl
@[simp] theorem pushReturn_mem : (s.pushReturn a).mem = s.mem := rfl
@[simp] theorem pushReturn_keys : (s.pushReturn a).keys = s.keys := rfl
@[simp] theorem pushReturn_rnd : (s.pushReturn a).rnd = s.rnd := rfl
@[simp] theorem pushReturn_draws : (s.pushReturn a).draws = s.draws := rfl
@[simp] theorem pushReturn_script : (s.pushReturn a).script = s.script := rfl
@[simp] theorem pushReturn_plan : (s.pushReturn a).plan = s.plan := rfl
@[simp] theorem pushReturn_taken : (s.pushReturn a).taken = s.taken := rfl

end PushReturn

section PopReturn
variable (s : State)

@[simp] theorem popReturn_V : (s.popReturn).V = s.V := rfl
@[simp] theorem popReturn_I : (s.popReturn).I = s.I := rfl
@[simp] theorem popReturn_pc : (s.popReturn).pc = s.pc := rfl
@[simp] theorem popReturn_stack : (s.popReturn).stack = s.stack := rfl
@[simp] theorem popReturn_SP : (s.popReturn).SP = Fin.ofNat 17 (s.SP.val - 1) := rfl
@[simp] theorem popReturn_DT : (s.popReturn).DT = s.DT := rfl
@[simp] theorem popReturn_ST : (s.popReturn).ST = s.ST := rfl
@[simp] theorem popReturn_fb : (s.popReturn).fb = s.fb := rfl
@[simp] theorem popReturn_mode : (s.popReturn).mode = s.mode := rfl
@[simp] theorem popReturn_tLast : (s.popReturn).tLast = s.tLast := rfl
@[simp] theorem popReturn_mem : (s.popReturn).mem = s.mem := rfl
@[simp] theorem popReturn_keys : (s.popReturn).keys = s.keys := rfl
@[simp] theorem popReturn_rnd : (s.popReturn).rnd = s.rnd := rfl
@[simp] theorem popReturn_draws : (s.popReturn).draws = s.draws := rfl
@[simp] theorem popReturn_script : (s.popReturn).script = s.script := rfl
@[simp] theorem popReturn_plan : (s.popReturn).plan = s.plan := rfl
@[simp] theorem popReturn_taken : (s.popReturn).taken = s.taken := rfl

end PopReturn

section Drawn
variable (s : State)

@[simp] theorem drawn_V : (s.drawn).V = s.V := rfl
@[simp] theorem drawn_I : (s.drawn).I = s.I := rfl
@[simp] theorem drawn_pc : (s.drawn).pc = s.pc := rfl
@[simp] theorem drawn_stack : (s.drawn).stack = s.stack := rfl
@[simp] theorem drawn_SP : (s.drawn).SP = s.SP := rfl
@[simp] theorem drawn_DT : (s.drawn).DT = s.DT := rfl
@[simp] theorem drawn_ST : (s.drawn).ST = s.ST := rfl
@[simp] theorem drawn_fb : (s.drawn).fb = s.fb := rfl
@[simp] theorem drawn_mode : (s.drawn).mode = s.mode := rfl
@[simp] theorem drawn_tLast : (s.drawn).tLast = s.tLast := rfl
@[simp] theorem drawn_mem : (s.drawn).mem = s.mem := rfl
@[simp] theorem drawn_keys : (s.drawn).keys = s.keys := rfl
@[simp] theorem drawn_rnd : (s.drawn).rnd = none := rfl
@[simp] theorem drawn_draws : (s.drawn).draws = s.draws + 1 := rfl
@[simp] theorem drawn_script : (s.drawn).script = s.script := rfl
@[simp] theorem drawn_plan : (s.drawn).plan = s.plan := rfl
@[simp] theorem drawn_taken : (s.drawn).taken = s.taken := rfl

end Drawn

/-! ### Reading one register, one stack entry and one byte after an update -/

@[simp] theorem getV_setV_same (s : State) (r : Reg) (v : Byte) : (s.setV r v).getV r = v := by
  simp [State.getV]

theorem getV_setV_other (s : State) {r q : Reg} (v : Byte) (h : q ≠ r) : (s.setV r v).getV q = s.getV q := by
  have : r.val ≠ q.val := fun e => h (Fin.ext e.symm)
  simp [State.getV, this]

theorem getV_setV (s : State) (r q : Reg) (v : Byte) :
    (s.setV r v).getV q = if q = r then v else s.getV q := by
  by_cases h : q = r
  · subst h; simp
  · simp [h, getV_setV_other]

@[simp] theorem getV_setI (s : State) (a : Word) (q : Reg) : (s.setI a).getV q = s.getV q := rfl
@[simp] theorem getV_setPc (s : State) (a : Word) (q : Reg) : (s.setPc a).getV q = s.getV q := rfl
@[simp] theorem getV_advance (s : State) (k : Nat) (q : Reg) : (s.advance k).getV q = s.getV q := rfl
@[simp] theorem getV_setDT (s : State) (v : Byte) (q : Reg) : (s.setDT v).getV q = s.getV q := rfl
@[simp] theorem getV_setST (s : State) (v : Byte) (q : Reg) : (s.setST v).getV q = s.getV q := rfl
@[simp] theorem getV_setMode (s : State) (m : Mode) (q : Reg) : (s.setMode m).getV q = s.getV q := rfl
@[simp] theorem getV_setFb (s : State) (f : Framebuffer) (q : Reg) : (s.setFb f).getV q = s.getV q := rfl
@[simp] theorem getV_setMem (s : State) (m : Memory) (q : Reg) : (s.setMem m).getV q = s.getV q := rfl
@[simp] theorem getV_pushReturn (s : State) (a : Word) (q : Reg) : (s.pushReturn a).getV q = s.getV q := rfl
@[simp] theorem getV_popReturn (s : State) (q : Reg) : (s.popReturn).getV q = s.getV q := rfl
@[simp] theorem getV_drawn (s : State) (q : Reg) : (s.drawn).getV q = s.getV q := rfl

@[simp] theorem readByte_setV (s : State) (r : Reg) (v : Byte) (a₀ : Nat) : (s.setV r v).readByte a₀ = s.readByte a₀ := rfl
@[simp] theorem readByte_setRegFile (s : State) (regs : Vector Byte 16) (a₀ : Nat) : (s.setRegFile regs).readByte a₀ = s.readByte a₀ := rfl
@[simp] theorem readByte_setI (s : State) (a : Word) (a₀ : Nat) : (s.setI a).readByte a₀ = s.readByte a₀ := rfl
@[simp] theorem readByte_setPc (s : State) (a : Word) (a₀ : Nat) : (s.setPc a).readByte a₀ = s.readByte a₀ := rfl
@[simp] theorem readByte_advance (s : State) (k : Nat) (a₀ : Nat) : (s.advance k).readByte a₀ = s.readByte a₀ := rfl
@[simp] theorem readByte_setDT (s : State) (v : Byte) (a₀ : Nat) : (s.setDT v).readByte a₀ = s.readByte a₀ := rfl
@[simp] theorem readByte_setST (s : State) (v : Byte) (a₀ : Nat) : (s.setST v).readByte a₀ = s.readByte a₀ := rfl
@[simp] theorem readByte_setMode (s : State) (m : Mode) (a₀ : Nat) : (s.setMode m).readByte a₀ = s.readByte a₀ := rfl
@[simp] theorem readByte_setFb (s : State) (f : Framebuffer) (a₀ : Nat) : (s.setFb f).readByte a₀ = s.readByte a₀ := rfl
@[simp] theorem readByte_pushReturn (s : State) (a : Word) (a₀ : Nat) : (s.pushReturn a).readByte a₀ = s.readByte a₀ := rfl
@[simp] theorem readByte_popReturn (s : State) (a₀ : Nat) : (s.popReturn).readByte a₀ = s.readByte a₀ := rfl
@[simp] theorem readByte_drawn (s : State) (a₀ : Nat) : (s.drawn).readByte a₀ = s.readByte a₀ := rfl
@[simp] theorem readByte_setMem (s : State) (m : Memory) (a : Nat) : (s.setMem m).readByte a = memRead m a := rfl

@[simp] theorem pixel_setV (s : State) (r : Reg) (v : Byte) (x₀ : Fin 64) (y₀ : Fin 32) : (s.setV r v).pixel x₀ y₀ = s.pixel x₀ y₀ := rfl
@[simp] theorem pixel_setRegFile (s : State) (regs : Vector Byte 16) (x₀ : Fin 64) (y₀ : Fin 32) : (s.setRegFile regs).pixel x₀ y₀ = s.pixel x₀ y₀ := rfl
@[simp] theorem pixel_setI (s : State) (a : Word) (x₀ : Fin 64) (y₀ : Fin 32) : (s.setI a).pixel x₀ y₀ = s.pixel x₀ y₀ := rfl
@[simp] theorem pixel_setPc (s : State) (a : Word) (x₀ : Fin 64) (y₀ : Fin 32) : (s.setPc a).pixel x₀ y₀ = s.pixel x₀ y₀ := rfl
@[simp] theorem pixel_advance (s : State) (k : Nat) (x₀ : Fin 64) (y₀ : Fin 32) : (s.advance k).pixel x₀ y₀ = s.pixel x₀ y₀ := rfl
@[simp] theorem pixel_setDT (s : State) (v : Byte) (x₀ : Fin 64) (y₀ : Fin 32) : (s.setDT v).pixel x₀ y₀ = s.pixel x₀ y₀ := rfl
@[simp] theorem pixel_setST (s : State) (v : Byte) (x₀ : Fin 64) (y₀ : Fin 32) : (s.setST v).pixel x₀ y₀ = s.pixel x₀ y₀ := rfl
@[simp] theorem pixel_setMode (s : State) (m : Mode) (x₀ : Fin 64) (y₀ : Fin 32) : (s.setMode m).pixel x₀ y₀ = s.pixel x₀ y₀ := rfl
@[simp] theorem pixel_setMem (s : State) (m : Memory) (x₀ : Fin 64) (y₀ : Fin 32) : (s.setMem m).pixel x₀ y₀ = s.pixel x₀ y₀ := rfl
@[simp] theorem pixel_pushReturn (s : State) (a : Word) (x₀ : Fin 64) (y₀ : Fin 32) : (s.pushReturn a).pixel x₀ y₀ = s.pixel x₀ y₀ := rfl
@[simp] theorem pixel_popReturn (s : State) (x₀ : Fin 64) (y₀ : Fin 32) : (s.popReturn).pixel x₀ y₀ = s.pixel x₀ y₀ := rfl
@[simp] theorem pixel_drawn (s : State) (x₀ : Fin 64) (y₀ : Fin 32) : (s.drawn).pixel x₀ y₀ = s.pixel x₀ y₀ := rfl
@[simp] theorem pixel_setFb (s : State) (f : Framebuffer) (x : Fin 64) (y : Fin 32) : (s.setFb f).pixel x y = fbGet f x y := rfl

end Sys2Proof.Machine
end

