-- ==== Sys2Proof/Laws/Memory.lean ====
section
/-! SUPPORT. The laws of memory: a read after a write, what a write leaves alone, and that every memory operation
keeps the canonical form. -/

namespace Sys2Proof.Machine

/-! ### Reading after one write -/

theorem memRead_memInsert (a b : Nat) (v : Byte) (m : Memory) :
    memRead (memInsert a v m) b = if b = a then v else memRead m b := by
  induction m with
  | nil => simp [memInsert, memRead]
  | cons c m ih =>
    obtain ⟨c, w⟩ := c
    simp only [memInsert]
    split
    · simp [memRead]
    · split
      · subst_vars; by_cases h : b = c <;> simp [memRead, h]
      · by_cases h : b = c
        · subst h; simp [memRead]; omega
        · simp [memRead, h, ih]

/-- In a canonical tail, an address below the tail's first one reads as unlisted. -/
theorem memRead_of_wfFrom {lo a : Nat} {m : Memory} (h : Memory.wfFrom lo m = true) (ha : a < lo) :
    memRead m a = initByte a := by
  induction m generalizing lo with
  | nil => rfl
  | cons c m ih =>
    obtain ⟨c, w⟩ := c
    simp only [Memory.wfFrom, Bool.and_eq_true, decide_eq_true_eq] at h
    have hne : a ≠ c := by omega
    simp only [memRead, if_neg hne]
    exact ih h.2 (by omega)

theorem memRead_memErase {lo : Nat} (a b : Nat) {m : Memory} (h : Memory.wfFrom lo m = true) :
    memRead (memErase a m) b = if b = a then initByte a else memRead m b := by
  induction m generalizing lo with
  | nil => by_cases hb : b = a <;> simp [memErase, memRead, hb]
  | cons c m ih =>
    obtain ⟨c, w⟩ := c
    simp only [Memory.wfFrom, Bool.and_eq_true, decide_eq_true_eq] at h
    simp only [memErase]
    split
    · subst_vars
      by_cases hb : b = c
      · subst hb; simp [memRead_of_wfFrom h.2 (Nat.lt_succ_self b)]
      · simp [memRead, hb]
    · by_cases hb : b = c
      · subst hb; simp [memRead]; omega
      · simp [memRead, hb, ih h.2]

/-- A read after a write: the byte written at its own address, the old byte at every other. -/
theorem memRead_memWrite {m : Memory} (h : Memory.wf m = true) (a b : Nat) (v : Byte) :
    memRead (memWrite m a v) b = if b = a then v else memRead m b := by
  unfold memWrite
  split
  · subst_vars; exact memRead_memErase a b h
  · exact memRead_memInsert a b v m

/-! ### The canonical form -/

theorem wfFrom_mono {lo lo' : Nat} {m : Memory} (h : Memory.wfFrom lo m = true) (hl : lo' ≤ lo) :
    Memory.wfFrom lo' m = true := by
  cases m with
  | nil => rfl
  | cons c m =>
    simp only [Memory.wfFrom, Bool.and_eq_true, decide_eq_true_eq] at h ⊢
    exact ⟨⟨⟨by omega, h.1.1.2⟩, h.1.2⟩, h.2⟩

theorem wfFrom_memInsert {lo a : Nat} {v : Byte} {m : Memory} (h : Memory.wfFrom lo m = true) (hlo : lo ≤ a)
    (ha : a < Config.memSize) (hv : v ≠ initByte a) : Memory.wfFrom lo (memInsert a v m) = true := by
  induction m generalizing lo with
  | nil => simp [memInsert, Memory.wfFrom, hlo, ha, hv]
  | cons c m ih =>
    obtain ⟨c, w⟩ := c
    simp only [Memory.wfFrom, Bool.and_eq_true, decide_eq_true_eq] at h
    simp only [memInsert]
    split
    · rename_i hc
      simp only [Memory.wfFrom, Bool.and_eq_true, decide_eq_true_eq]
      exact ⟨⟨⟨hlo, ha⟩, hv⟩, ⟨⟨by omega, h.1.1.2⟩, h.1.2⟩, h.2⟩
    · split
      · subst_vars
        simp only [Memory.wfFrom, Bool.and_eq_true, decide_eq_true_eq]
        exact ⟨⟨⟨hlo, ha⟩, hv⟩, h.2⟩
      · simp only [Memory.wfFrom, Bool.and_eq_true, decide_eq_true_eq]
        exact ⟨h.1, ih h.2 (by omega)⟩

theorem wfFrom_memErase {lo : Nat} (a : Nat) {m : Memory} (h : Memory.wfFrom lo m = true) :
    Memory.wfFrom lo (memErase a m) = true := by
  induction m generalizing lo with
  | nil => rfl
  | cons c m ih =>
    obtain ⟨c, w⟩ := c
    simp only [Memory.wfFrom, Bool.and_eq_true, decide_eq_true_eq] at h
    simp only [memErase]
    split
    · exact wfFrom_mono h.2 (by omega)
    · simp only [Memory.wfFrom, Bool.and_eq_true, decide_eq_true_eq]
      exact ⟨h.1, ih h.2⟩

/-- A write inside the address space keeps the canonical form. -/
theorem wf_memWrite {m : Memory} (h : Memory.wf m = true) {a : Nat} (ha : a < Config.memSize) (v : Byte) :
    Memory.wf (memWrite m a v) = true := by
  unfold memWrite
  split
  · exact wfFrom_memErase a h
  · rename_i hv
    exact wfFrom_memInsert h (Nat.zero_le a) ha hv

/-- A block write inside the address space keeps the canonical form. -/
theorem wf_memWriteBlock {m : Memory} (h : Memory.wf m = true) {a : Nat} (vs : List Byte)
    (ha : a + vs.length ≤ Config.memSize) : Memory.wf (memWriteBlock m a vs) = true := by
  induction vs generalizing m a with
  | nil => exact h
  | cons v vs ih =>
    simp only [List.length_cons] at ha
    exact ih (wf_memWrite h (by omega) v) (by omega)

/-- What each address reads as after a block write. -/
theorem memRead_memWriteBlock {m : Memory} (h : Memory.wf m = true) {a : Nat} (vs : List Byte)
    (ha : a + vs.length ≤ Config.memSize) (b : Nat) :
    memRead (memWriteBlock m a vs) b =
      if a ≤ b ∧ b < a + vs.length then vs.getD (b - a) 0 else memRead m b := by
  induction vs generalizing m a with
  | nil =>
    have : ¬(a ≤ b ∧ b < a) := by omega
    simp [memWriteBlock, this]
  | cons v vs ih =>
    simp only [List.length_cons] at ha
    have hw := wf_memWrite h (show a < Config.memSize by omega) v
    rw [memWriteBlock, ih hw (show a + 1 + vs.length ≤ Config.memSize by omega), memRead_memWrite h, List.length_cons]
    by_cases hb : b = a
    · subst hb; simp
    · by_cases hin : a ≤ b ∧ b < a + (vs.length + 1)
      · have h1 : a + 1 ≤ b ∧ b < a + 1 + vs.length := by omega
        obtain ⟨k, rfl⟩ : ∃ k, b = a + 1 + k := ⟨b - (a + 1), by omega⟩
        have e1 : a + 1 + k - (a + 1) = k := by omega
        have e2 : a + 1 + k - a = k + 1 := by omega
        simp only [if_pos h1, if_pos hin, e1, e2, List.getD_cons_succ]
      · have h1 : ¬(a + 1 ≤ b ∧ b < a + 1 + vs.length) := by omega
        simp only [if_neg h1, if_neg hin, if_neg hb]

/-- The bytes of a block read. -/
theorem length_memReadBlock (m : Memory) (a n : Nat) : (memReadBlock m a n).length = n := by
  induction n generalizing a with
  | zero => rfl
  | succ n ih => simp [memReadBlock, ih]

theorem getD_memReadBlock (m : Memory) (a n k : Nat) (h : k < n) :
    (memReadBlock m a n).getD k 0 = memRead m (a + k) := by
  induction n generalizing a k with
  | zero => omega
  | succ n ih =>
    cases k with
    | zero => simp [memReadBlock]
    | succ k =>
      simp only [memReadBlock, List.getD_cons_succ, ih (a + 1) k (by omega)]
      congr 1; omega

/-- The check of `CheckRange`, without the subtraction. -/
theorem inRange_iff {addr : Word} {n : Nat} : inRange addr n = true ↔
    addr.toNat + n ≤ Config.memSize := by
  rw [inRange, decide_eq_true_eq, Config.memSize]; omega

/-- What the empty memory reads as: the font, then zeros (rules R25 and R33). -/
theorem initByte_eq (a : Nat) : initByte a = Config.font.getD a 0 := by
  simp [initByte, Config.params]

end Sys2Proof.Machine
end

