-- ==== Sys2Proof/Laws/Draw.lean ====
section
/-! SUPPORT. What a draw does, pixel by pixel: the lemmas of the framebuffer and of the loops over a sprite's bits
and rows. -/

namespace Sys2Proof.Machine

theorem fbGet_fbSet (fb : Framebuffer) (x u : Fin 64) (y v : Fin 32) (b : Bool) :
    fbGet (fbSet fb x y b) u v = if u = x ∧ v = y then b else fbGet fb u v := by
  unfold fbGet fbSet
  by_cases hu : u = x
  · subst hu
    by_cases hv : v = y
    · subst hv; simp
    · have : y.val ≠ v.val := fun e => hv (Fin.ext e.symm)
      simp [hv, this]
  · have : x.val ≠ u.val := fun e => hu (Fin.ext e.symm)
    simp [hu, this]

theorem fbGet_fbClear (x : Fin 64) (y : Fin 32) : fbGet fbClear x y = false := by
  simp [fbGet, fbClear]

/-- A draw, described by the set of pixels it hits: those are flipped, and `collide` tells whether one was lit. -/
structure Draws (hit : Nat → Nat → Prop) (d e : Drawing) : Prop where
  flipped : ∀ (X : Fin 64) (Y : Fin 32), hit X Y → fbGet e.fb X Y = !(fbGet d.fb X Y)
  kept    : ∀ (X : Fin 64) (Y : Fin 32), ¬ hit X Y → fbGet e.fb X Y = fbGet d.fb X Y
  collide : e.collide = true ↔ d.collide = true ∨ ∃ (X : Fin 64) (Y : Fin 32), hit X Y ∧ fbGet d.fb X Y = true

theorem Draws.refl (d : Drawing) {hit : Nat → Nat → Prop} (h : ∀ X Y, ¬ hit X Y) : Draws hit d d :=
  ⟨fun X Y hx => absurd hx (h X Y), fun _ _ _ => rfl, by simp [h]⟩

theorem Draws.congr {d e : Drawing} {hit hit' : Nat → Nat → Prop} (h : Draws hit d e)
    (hh : ∀ X Y, hit X Y ↔ hit' X Y) : Draws hit' d e := by
  have : hit = hit' := by funext X Y; exact propext (hh X Y)
  exact this ▸ h

/-- Two draws that hit no pixel in common. -/
theorem Draws.trans {d e f : Drawing} {h₁ h₂ : Nat → Nat → Prop} (a : Draws h₁ d e) (b : Draws h₂ e f)
    (disj : ∀ X Y, h₁ X Y → ¬ h₂ X Y) : Draws (fun X Y => h₁ X Y ∨ h₂ X Y) d f where
  flipped X Y h := by
    rcases h with h | h
    · rw [b.kept X Y (disj X Y h), a.flipped X Y h]
    · rw [b.flipped X Y h, a.kept X Y (fun h' => disj X Y h' h)]
  kept X Y h := by
    rw [b.kept X Y (fun h' => h (.inr h')), a.kept X Y (fun h' => h (.inl h'))]
  collide := by
    rw [b.collide, a.collide, or_assoc]
    refine or_congr Iff.rfl ⟨?_, ?_⟩
    · rintro (⟨X, Y, h, hl⟩ | ⟨X, Y, h, hl⟩)
      · exact ⟨X, Y, .inl h, hl⟩
      · exact ⟨X, Y, .inr h, by rw [← a.kept X Y (fun h' => disj X Y h' h)]; exact hl⟩
    · rintro ⟨X, Y, h | h, hl⟩
      · exact .inl ⟨X, Y, h, hl⟩
      · exact .inr ⟨X, Y, h, by rw [a.kept X Y (fun h' => disj X Y h' h)]; exact hl⟩

/-- One bit hits its pixel, or is clipped (rule R86). -/
theorem drawBit_draws (X₀ Y₀ : Nat) (d : Drawing) :
    Draws (fun X Y => X = X₀ ∧ Y = Y₀) d (drawBit X₀ Y₀ d) := by
  unfold drawBit
  split
  · rename_i h
    refine ⟨?_, ?_, ?_⟩
    · rintro X Y ⟨hx, hy⟩
      have hx' : X = ⟨X₀, h.1⟩ := Fin.ext hx
      have hy' : Y = ⟨Y₀, h.2⟩ := Fin.ext hy
      subst hx' hy'
      simp [fbGet_fbSet]
    · intro X Y hn
      rw [fbGet_fbSet, if_neg]
      rintro ⟨rfl, rfl⟩; exact hn ⟨rfl, rfl⟩
    · simp only [Bool.or_eq_true]
      refine or_congr Iff.rfl ⟨fun hl => ⟨⟨X₀, h.1⟩, ⟨Y₀, h.2⟩, ⟨rfl, rfl⟩, hl⟩, ?_⟩
      rintro ⟨X, Y, ⟨hx, hy⟩, hl⟩
      have hx' : X = ⟨X₀, h.1⟩ := Fin.ext hx
      have hy' : Y = ⟨Y₀, h.2⟩ := Fin.ext hy
      subst hx' hy'; exact hl
  · rename_i h
    have no : ∀ (X : Fin 64) (Y : Fin 32), ¬ (X.val = X₀ ∧ Y.val = Y₀) := by
      rintro X Y ⟨rfl, rfl⟩; exact h ⟨X.isLt, Y.isLt⟩
    exact ⟨fun X Y hx => absurd hx (no X Y), fun _ _ _ => rfl, by simp [no]⟩

/-- A row's bits from offset `c` on. -/
theorem drawRowFrom_draws (X₀ Y₀ : Nat) (row : Byte) (k c : Nat) (d : Drawing) :
    Draws (fun X Y => Y = Y₀ ∧ ∃ j, c ≤ j ∧ j < c + k ∧ X = X₀ + j ∧ spriteBit row j = true) d
      (drawRowFrom X₀ Y₀ row c k d) := by
  induction k generalizing c d with
  | zero => exact Draws.refl d (by rintro X Y ⟨-, j, h1, h2, -⟩; omega)
  | succ k ih =>
    simp only [drawRowFrom]
    have rest := ih (c + 1)
    by_cases hb : spriteBit row c = true
    · rw [if_pos hb]
      refine ((drawBit_draws (X₀ + c) Y₀ d).trans (rest _) ?_).congr ?_
      · rintro X Y ⟨rfl, rfl⟩ ⟨-, j, h1, -, h3, -⟩; omega
      · intro X Y
        constructor
        · rintro (⟨rfl, rfl⟩ | ⟨rfl, j, h1, h2, h3, h4⟩)
          · exact ⟨rfl, c, by omega, by omega, rfl, hb⟩
          · exact ⟨rfl, j, by omega, by omega, h3, h4⟩
        · rintro ⟨rfl, j, h1, h2, h3, h4⟩
          by_cases hj : j = c
          · subst hj; exact .inl ⟨h3, rfl⟩
          · exact .inr ⟨rfl, j, by omega, by omega, h3, h4⟩
    · rw [if_neg hb]
      refine (rest d).congr fun X Y => ?_
      constructor
      · rintro ⟨rfl, j, h1, h2, h3, h4⟩; exact ⟨rfl, j, by omega, by omega, h3, h4⟩
      · rintro ⟨rfl, j, h1, h2, h3, h4⟩
        have : j ≠ c := by rintro rfl; exact hb h4
        exact ⟨rfl, j, by omega, by omega, h3, h4⟩

/-- The rows of a sprite. -/
theorem drawRows_draws (X₀ Y₀ : Nat) (rows : List Byte) (d : Drawing) :
    Draws (fun X Y => X₀ ≤ X ∧ X < X₀ + 8 ∧ Y₀ ≤ Y ∧ Y < Y₀ + rows.length ∧
      spriteBit (rows.getD (Y - Y₀) 0) (X - X₀) = true) d (drawRows X₀ Y₀ rows d) := by
  induction rows generalizing Y₀ d with
  | nil => exact Draws.refl d (by rintro X Y ⟨-, -, h1, h2, -⟩; simp at h2; omega)
  | cons row rows ih =>
    simp only [drawRows]
    refine ((drawRowFrom_draws X₀ Y₀ row 8 0 d).trans (ih (Y₀ + 1) _) ?_).congr ?_
    · rintro X Y ⟨rfl, -⟩ ⟨-, -, h1, -, -⟩; omega
    · intro X Y
      simp only [List.length_cons]
      constructor
      · rintro (⟨rfl, j, h1, h2, rfl, h4⟩ | ⟨h1, h2, h3, h4, h5⟩)
        · refine ⟨by omega, by omega, by omega, by omega, ?_⟩
          rw [Nat.sub_self, Nat.add_sub_cancel_left]; simpa using h4
        · refine ⟨h1, h2, by omega, by omega, ?_⟩
          rw [show Y - Y₀ = (Y - (Y₀ + 1)) + 1 by omega]; simpa using h5
      · rintro ⟨h1, h2, h3, h4, h5⟩
        by_cases hy : Y = Y₀
        · subst hy
          refine .inl ⟨rfl, X - X₀, by omega, by omega, by omega, ?_⟩
          rw [Nat.sub_self] at h5; simpa using h5
        · refine .inr ⟨h1, h2, by omega, by omega, ?_⟩
          rw [show Y - Y₀ = (Y - (Y₀ + 1)) + 1 by omega] at h5; simpa using h5

/-- The draw of rule R88 at its start coordinates has the effect the rule gives. -/
theorem drawSprite_effect (px0 py0 n : Nat) (s : State) :
    DrawEffect px0 py0 n s (drawSprite px0 py0 (memReadBlock s.mem s.I.toNat n) s) := by
  have h := drawRows_draws px0 py0 (memReadBlock s.mem s.I.toNat n) { fb := s.fb, collide := false }
  have hits : ∀ X Y, SpriteHits s px0 py0 n X Y ↔
      (px0 ≤ X ∧ X < px0 + 8 ∧ py0 ≤ Y ∧ Y < py0 + (memReadBlock s.mem s.I.toNat n).length ∧
        spriteBit ((memReadBlock s.mem s.I.toNat n).getD (Y - py0) 0) (X - px0) = true) := by
    intro X Y
    rw [length_memReadBlock]
    constructor
    · rintro ⟨h1, h2, h3, h4, h5⟩
      refine ⟨h1, h2, h3, h4, ?_⟩
      rw [getD_memReadBlock _ _ _ _ (by omega)]; exact h5
    · rintro ⟨h1, h2, h3, h4, h5⟩
      refine ⟨h1, h2, h3, h4, ?_⟩
      rw [getD_memReadBlock _ _ _ _ (by omega)] at h5; exact h5
  have h := h.congr (fun X Y => (hits X Y).symm)
  refine ⟨?_, ?_, ?_, ?_⟩
  · intro X Y hx; exact h.flipped X Y hx
  · intro X Y hx; exact h.kept X Y hx
  · rintro ⟨X, Y, hx, hl⟩
    have hc := h.collide.mpr (.inr ⟨X, Y, hx, hl⟩)
    simp only [drawSprite, getV_setV_same, hc, flagByte, if_true]
  · intro hd
    have hc : ¬ (drawRows px0 py0 (memReadBlock s.mem s.I.toNat n) ⟨s.fb, false⟩).collide = true := by
      rw [h.collide]
      rintro (hf | ⟨X, Y, hx, hl⟩)
      · cases hf
      · have := hd X Y hx
        rw [show s.pixel X Y = fbGet s.fb X Y from rfl] at this
        rw [this] at hl; cases hl
    simp only [drawSprite, getV_setV_same, flagByte, if_neg hc]

end Sys2Proof.Machine
end

