-- ==== Sys2Proof/Laws/Ops.lean ====
section
/-! SUPPORT. One lemma for each shared operation: the registers of a block, the key lookup, counting down, raising a
fault, the clock's catching up, and the step's own cases. -/

namespace Sys2Proof.Machine

/-! ### Registers of a block -/

theorem getElem_setRegs (regs : Vector Byte 16) (k : Nat) (vs : List Byte) (r : Fin 16) :
    (setRegs regs k vs)[r] = if k ≤ r.val ∧ r.val < k + vs.length then vs.getD (r.val - k) 0 else regs[r] := by
  induction vs generalizing regs k with
  | nil =>
    have : ¬(k ≤ r.val ∧ r.val < k) := by omega
    simp [setRegs, this]
  | cons v vs ih =>
    rw [setRegs, ih, List.length_cons]
    by_cases hk : r.val = k
    · subst hk
      have h1 : ¬(r.val + 1 ≤ r.val ∧ r.val < r.val + 1 + vs.length) := by omega
      have h2 : r.val ≤ r.val ∧ r.val < r.val + (vs.length + 1) := by omega
      simp [h2]
    · have hk' : k ≠ r.val := Ne.symm hk
      have hold : (regs.setIfInBounds k v)[r] = regs[r] := by simp [hk']
      by_cases hin : k ≤ r.val ∧ r.val < k + (vs.length + 1)
      · have h1 : k + 1 ≤ r.val ∧ r.val < k + 1 + vs.length := by omega
        rw [if_pos h1, if_pos hin, show r.val - k = (r.val - (k + 1)) + 1 by omega, List.getD_cons_succ]
      · have h1 : ¬(k + 1 ≤ r.val ∧ r.val < k + 1 + vs.length) := by omega
        rw [if_neg h1, if_neg hin, hold]

theorem length_blockRegs (s : State) (x : Reg) : (blockRegs s x).length = x.val + 1 := by
  have := x.isLt
  simp [blockRegs]

theorem getD_blockRegs (s : State) (x k : Reg) (h : k ≤ x) : (blockRegs s x).getD k.val 0 = s.getV k := by
  have h1 : k.val < x.val + 1 := Nat.lt_succ_of_le h
  have h2 := k.isLt
  have h3 : k.val < x.val + 1 ∧ k.val < 16 := ⟨h1, h2⟩
  simp [blockRegs, State.getV, List.getD_eq_getElem?_getD, h1]

/-! ### Keys -/

theorem lowestKey_eq_some (keys : KeySample) (k : Reg) :
    lowestKey keys = some k ↔ keyDown keys k.val = true ∧ ∀ j : Reg, j < k → ¬ keyDown keys j.val = true := by
  unfold lowestKey
  rw [List.find?_eq_some_iff_getElem]
  constructor
  · rintro ⟨h1, i, hi, he, hj⟩
    have he' : i = k.val := by rw [← he]; simp
    refine ⟨h1, fun j hlt => ?_⟩
    have hlt' : j.val < i := by rw [he']; exact hlt
    have := hj j.val hlt'
    simpa using this
  · rintro ⟨h1, hj⟩
    refine ⟨h1, k.val, by simp, by simp, fun j hlt => ?_⟩
    have := hj ⟨j, Nat.lt_trans hlt k.isLt⟩ hlt
    simpa using this

theorem lowestKey_eq_none (keys : KeySample) : lowestKey keys = none ↔ ∀ k : Reg, ¬ keyDown keys k.val = true := by
  simp [lowestKey, List.find?_eq_none]

theorem keyDown_freshKeys (keys prev : KeySample) (k : Reg) :
    keyDown (freshKeys keys prev) k.val = true ↔ keys.getLsbD k.val = true ∧ prev.getLsbD k.val = false := by
  have := k.isLt
  simp [keyDown, freshKeys, this]

/-! ### Counting down -/

theorem countDown_toNat (v : Byte) : (countDown v).toNat = v.toNat - 1 := by
  have := v.isLt
  unfold countDown
  split
  · rw [BitVec.toNat_sub_of_le (by rw [BitVec.le_def]; simpa using ‹_›)]; rfl
  · omega

/-- `n` turns of the timebase: the timers `n` down, `t_last` on by `n` intervals, the rest unchanged. -/
theorem catchUp_eq (n : Nat) (s : State) :
    ∃ dt st : Byte, catchUp n s = { s with DT := dt, ST := st, tLast := s.tLast + n * Config.tickInterval } ∧
      dt.toNat = s.DT.toNat - n ∧ st.toNat = s.ST.toNat - n := by
  induction n generalizing s with
  | zero => exact ⟨s.DT, s.ST, by simp [catchUp], rfl, rfl⟩
  | succ n ih =>
    obtain ⟨dt, st, he, hd, hs⟩ := ih { tick s with tLast := s.tLast + Config.tickInterval }
    refine ⟨dt, st, ?_, ?_, ?_⟩
    · rw [catchUp, he]
      simp only [tick, State.setDT, State.setST, Nat.succ_mul, Nat.add_assoc, Nat.add_comm Config.tickInterval]
    · rw [hd]; simp only [tick, setST_DT, setDT_DT, countDown_toNat]; omega
    · rw [hs]; simp only [tick, setST_ST, countDown_toNat]; omega

/-! ### Raising a fault -/

theorem raiseFault_eq (kind : FaultKind) (word : Option Word) (detail : Detail) (s : State) :
    raiseFault kind word detail s = .next (haltedWith kind word detail s) := rfl

@[simp] theorem mode_haltedWith (kind : FaultKind) (word : Option Word) (detail : Detail) (s : State) :
    (haltedWith kind word detail s).mode = .halted { kind := kind, pc := s.pc, word := word, detail := detail } := rfl

/-- A fault changes no part but the mode. -/
theorem haltedWith_frame (kind : FaultKind) (word : Option Word) (detail : Detail) (s : State) :
    FrameBut [] [.mode] s (haltedWith kind word detail s) := by
  refine ⟨fun _ _ => rfl, fun p hp => ?_⟩
  cases p <;> first | rfl | exact ⟨rfl, rfl⟩ | exact ⟨rfl, rfl, rfl, rfl, rfl⟩ | exact fun _ => rfl | exact fun _ _ => rfl | exact absurd (by simp) hp

/-! ### The step -/

theorem takeInput_eq_some {s t : State} {inp : Input} : takeInput s = some (inp, t) ↔ NextInput s inp t := by
  obtain ⟨V, I, pc, stack, SP, DT, ST, fb, mode, tLast, mem, keys, rnd, draws, script, plan, taken⟩ := s
  cases script <;> cases plan <;> simp [takeInput, NextInput, eq_comm, and_comm]

theorem takeInput_eq_none {s : State} : takeInput s = none ↔ NoInput s := by
  obtain ⟨V, I, pc, stack, SP, DT, ST, fb, mode, tLast, mem, keys, rnd, draws, script, plan, taken⟩ := s
  cases script <;> cases plan <;> simp [takeInput, NoInput]

/-- A step that takes an input of the host is what that input does. -/
theorem NextInput.step_eq {s t : State} {inp : Input} (h : NextInput s inp t) : step s = applyInput inp t := by
  simp [step, nextStep, takeInput_eq_some.mpr h]

/-- A step with no input of the host to come. -/
theorem NoInput.step_eq {s : State} (h : NoInput s) : step s = unattendedStep s := by
  simp [step, nextStep, takeInput_eq_none.mpr h]

/-- Taking an input changes only what is left of the host's inputs. -/
theorem NextInput.eq {s t : State} {inp : Input} (h : NextInput s inp t) :
    ∃ script taken, t = { s with script := script, taken := taken } := by
  rcases h with ⟨rest, _, rfl⟩ | ⟨_, ⟨rest, _, rfl⟩ | ⟨_, _, rfl⟩⟩
  · exact ⟨rest, s.taken, rfl⟩
  · exact ⟨rest, s.taken, rfl⟩
  · exact ⟨s.script, s.taken + 1, rfl⟩

/-- The core's own step begins in a state that differs in the host's fields only. -/
theorem CycleStart.eq {s u : State} (h : CycleStart s u) :
    ∃ keys rnd script taken, u = { s with keys := keys, rnd := rnd, script := script, taken := taken } := by
  rcases h with ⟨_, rfl⟩ | ⟨keys, rnd, t, ht, rfl⟩
  · exact ⟨s.keys, none, s.script, s.taken, rfl⟩
  · obtain ⟨script, taken, rfl⟩ := ht.eq
    exact ⟨keys, rnd, script, taken, rfl⟩

/-- In Running mode the core's own step is an instruction step. -/
theorem CycleStart.running {s u : State} (h : CycleStart s u) (hm : s.mode = .running) :
    step s = instructionStep u := by
  rcases h with ⟨hn, rfl⟩ | ⟨keys, rnd, t, ht, rfl⟩
  · rw [hn.step_eq, unattendedStep, hm]; simp only [cycleStep, hm]
  · obtain ⟨script, taken, rfl⟩ := ht.eq
    rw [ht.step_eq]; simp only [applyInput, cycleStep, hm]

/-- The first word of a state the host has placed a word in. -/
theorem instructionStep_of_decode {s : State} {i : Instr} (hpc : s.pc.toNat + 1 < Config.memSize)
    (hd : decodeWord (fetchWord s) = .ok i) : instructionStep s = exec i s := by
  have : inRange s.pc 2 = true := by rw [inRange_iff]; omega
  simp [instructionStep, this, hd]

end Sys2Proof.Machine
end

