-- ==== Sys2Proof/Laws/PerInstr.lean ====
section
/-! SUPPORT. Statements about every instruction, one lemma per constructor. -/

namespace Sys2Proof.Laws.EncodedWordMatchesItsRow

/-- The opcode table's row of an instruction takes the instruction's word (30_encoding.md rule R43). -/
def Statement (i : Instr) : Prop := i.wf = true → (rowOf i).accepts (encode i) = true

theorem of_nnn {g : Nat} {name : String} {p : Word} (nnn : Addr12) (hg : g < 16) (hp : p.toNat = g * 4096) :
    OpRow.accepts ⟨name, p, 0xF000, []⟩ (wordNNN g nnn.toNat) = true := by
  have := nnn.isLt
  refine (accepts_iff _ _).mpr ⟨BitVec.eq_of_toNat_eq ?_, by simp⟩
  rw [hp]; erw [and_F000]; rw [wordNNN_toNat hg nnn.isLt]; omega

theorem of_xkk {g : Nat} {name : String} {p : Word} (x : Reg) (kk : Byte) (hg : g < 16) (hp : p.toNat = g * 4096) :
    OpRow.accepts ⟨name, p, 0xF000, []⟩ (wordXKK g x kk.toNat) = true := by
  have := kk.isLt
  refine (accepts_iff _ _).mpr ⟨BitVec.eq_of_toNat_eq ?_, by simp⟩
  rw [hp]; erw [and_F000]; rw [wordXKK_toNat x hg kk.isLt]; omega

theorem of_xyn {g : Nat} {name : String} {p : Word} (x y n : Fin 16) (hg : g < 16) (hp : p.toNat = g * 4096) :
    OpRow.accepts ⟨name, p, 0xF000, []⟩ (wordXYN g x y n) = true := by
  refine (accepts_iff _ _).mpr ⟨BitVec.eq_of_toNat_eq ?_, by simp⟩
  rw [hp]; erw [and_F000]; rw [wordXYN_toNat x y hg n.isLt]; omega

theorem of_xy {g n : Nat} {name : String} {p : Word} (x y : Reg) (hg : g < 16) (hn : n < 16)
    (hp : p.toNat = g * 4096 + n) : OpRow.accepts ⟨name, p, 0xF00F, []⟩ (wordXYN g x y n) = true := by
  refine (accepts_iff _ _).mpr ⟨BitVec.eq_of_toNat_eq ?_, by simp⟩
  rw [hp]; erw [and_F00F]; rw [wordXYN_toNat x y hg hn]; omega

theorem of_x {g k : Nat} {name : String} {p : Word} (x : Reg) (hg : g < 16) (hk : k < 256)
    (hp : p.toNat = g * 4096 + k) : OpRow.accepts ⟨name, p, 0xF0FF, []⟩ (wordXKK g x k) = true := by
  refine (accepts_iff _ _).mpr ⟨BitVec.eq_of_toNat_eq ?_, by simp⟩
  rw [hp]; erw [and_F0FF]; rw [wordXKK_toNat x hg hk]; omega

theorem cls : Statement (.cls) := fun _ => by decide

theorem ret : Statement (.ret) := fun _ => by decide

theorem sys (nnn : Addr12) : Statement (.sys nnn) := by
  intro h
  simp only [Instr.wf, sysFieldOk, Bool.and_eq_true, bne_iff_ne] at h
  have hn := nnn.isLt
  refine (accepts_iff _ _).mpr ⟨BitVec.eq_of_toNat_eq ?_, ?_⟩
  · simp only [rowOf, encode]; erw [and_F000]; rw [wordNNN_toNat (by omega) nnn.isLt]; simp
  · have ne : ∀ a : Addr12, nnn ≠ a → wordNNN 0 nnn.toNat ≠ wordNNN 0 a.toNat := fun a hne e =>
      hne (by rw [← fieldNNN_wordNNN (g := 0) nnn (by omega), e, fieldNNN_wordNNN a (by omega)])
    have h1 := ne 0x0E0 h.1
    have h2 := ne 0x0EE h.2
    simp only [rowOf, encode, List.mem_cons, List.not_mem_nil, or_false, not_or]
    exact ⟨h1, h2⟩

theorem jp (nnn : Addr12) : Statement (.jp nnn) := fun _ => of_nnn nnn (by omega) rfl

theorem call (nnn : Addr12) : Statement (.call nnn) := fun _ => of_nnn nnn (by omega) rfl

theorem seImm (x : Reg) (kk : Byte) : Statement (.seImm x kk) := fun _ => of_xkk x kk (by omega) rfl

theorem sneImm (x : Reg) (kk : Byte) : Statement (.sneImm x kk) := fun _ => of_xkk x kk (by omega) rfl

theorem seReg (x : Reg) (y : Reg) : Statement (.seReg x y) := fun _ => of_xy x y (by omega) (by omega) rfl

theorem ldImm (x : Reg) (kk : Byte) : Statement (.ldImm x kk) := fun _ => of_xkk x kk (by omega) rfl

theorem addImm (x : Reg) (kk : Byte) : Statement (.addImm x kk) := fun _ => of_xkk x kk (by omega) rfl

theorem ldReg (x : Reg) (y : Reg) : Statement (.ldReg x y) := fun _ => of_xy x y (by omega) (by omega) rfl

theorem orReg (x : Reg) (y : Reg) : Statement (.orReg x y) := fun _ => of_xy x y (by omega) (by omega) rfl

theorem andReg (x : Reg) (y : Reg) : Statement (.andReg x y) := fun _ => of_xy x y (by omega) (by omega) rfl

theorem xorReg (x : Reg) (y : Reg) : Statement (.xorReg x y) := fun _ => of_xy x y (by omega) (by omega) rfl

theorem addReg (x : Reg) (y : Reg) : Statement (.addReg x y) := fun _ => of_xy x y (by omega) (by omega) rfl

theorem sub (x : Reg) (y : Reg) : Statement (.sub x y) := fun _ => of_xy x y (by omega) (by omega) rfl

theorem shr (x : Reg) (y : Reg) : Statement (.shr x y) := fun _ => of_xy x y (by omega) (by omega) rfl

theorem subn (x : Reg) (y : Reg) : Statement (.subn x y) := fun _ => of_xy x y (by omega) (by omega) rfl

theorem shl (x : Reg) (y : Reg) : Statement (.shl x y) := fun _ => of_xy x y (by omega) (by omega) rfl

theorem sneReg (x : Reg) (y : Reg) : Statement (.sneReg x y) := fun _ => of_xy x y (by omega) (by omega) rfl

theorem ldI (nnn : Addr12) : Statement (.ldI nnn) := fun _ => of_nnn nnn (by omega) rfl

theorem jpV0 (nnn : Addr12) : Statement (.jpV0 nnn) := fun _ => of_nnn nnn (by omega) rfl

theorem rnd (x : Reg) (kk : Byte) : Statement (.rnd x kk) := fun _ => of_xkk x kk (by omega) rfl

theorem drw (x : Reg) (y : Reg) (n : Fin 16) : Statement (.drw x y n) := fun _ => of_xyn x y n (by omega) rfl

theorem skp (x : Reg) : Statement (.skp x) := fun _ => of_x x (by omega) (by omega) rfl

theorem sknp (x : Reg) : Statement (.sknp x) := fun _ => of_x x (by omega) (by omega) rfl

theorem ldVDt (x : Reg) : Statement (.ldVDt x) := fun _ => of_x x (by omega) (by omega) rfl

theorem ldVK (x : Reg) : Statement (.ldVK x) := fun _ => of_x x (by omega) (by omega) rfl

theorem ldDtV (x : Reg) : Statement (.ldDtV x) := fun _ => of_x x (by omega) (by omega) rfl

theorem ldStV (x : Reg) : Statement (.ldStV x) := fun _ => of_x x (by omega) (by omega) rfl

theorem addI (x : Reg) : Statement (.addI x) := fun _ => of_x x (by omega) (by omega) rfl

theorem ldF (x : Reg) : Statement (.ldF x) := fun _ => of_x x (by omega) (by omega) rfl

theorem ldB (x : Reg) : Statement (.ldB x) := fun _ => of_x x (by omega) (by omega) rfl

theorem stRegs (x : Reg) : Statement (.stRegs x) := fun _ => of_x x (by omega) (by omega) rfl

theorem ldRegs (x : Reg) : Statement (.ldRegs x) := fun _ => of_x x (by omega) (by omega) rfl

end Sys2Proof.Laws.EncodedWordMatchesItsRow
end

