-- ==== Sys2Proof/Tests/Slice0.lean ====
section
/-! SUPPORT. The model's own tests: the well-formedness smoke, the decoding of every constructor from a word written out
from the spec's encoding, one-step vectors of 95_test_vectors.md, and for every statement with hypotheses a state and
operands that meet them all. Expected values are the spec's, not the model's. -/

namespace Sys2Proof.Tests

open Sys2Proof Sys2Proof.Machine

/-! ### Helpers: a small state, and one field of what a step answers -/

/-- The reset state with a word at 0x200, some registers and I. -/
def at200 (w : Word) (regs : List (Reg × Byte) := []) (I : Word := 0) : State :=
  regs.foldl (fun s r => s.setV r.1 r.2) ((placeWord State.reset w).setI I)

/-- `a` field of the next state, where the outcome is one. -/
def got {α : Type} (o : Host.Outcome State Fault Refusal) (f : State → α) : Option α :=
  match o with
  | .next t    => some (f t)
  | .fault _   => none
  | .refused _ => none

/-- A step with a key sample. -/
def withInputs (s : State) (script : List Input) : State := { s with script := script }

/-- The state's fields a halting step may not change, beside the mode. -/
def haltKind (t : State) : Option (FaultKind × Word × Option Word × Detail) :=
  match t.mode with
  | .halted d => some (d.kind, d.pc, d.word, d.detail)
  | .running | .waiting _ _ => none

/-! ### Well-formedness: the one check refuses the terms no word stands for (30_encoding.md rules R43, R44) -/

theorem test_wf_refuses_sys_0E0 : Instr.wf (.sys 0x0E0) = false := by decide
theorem test_wf_refuses_sys_0EE : Instr.wf (.sys 0x0EE) = false := by decide
theorem test_wf_accepts_neighbours : Instr.wf (.sys 0x0E1) = true ∧ Instr.wf (.sys 0x0EF) = true := by decide

/-! ### Decoding: one word for every constructor, written from the encodings of 30_encoding.md rule R43 -/

theorem test_decode_group0 : decodeWord 0b0000000011100000 = .ok .cls ∧ decodeWord 0b0000000011101110 = .ok .ret ∧
    decodeWord 0b0000101010111100 = .ok (.sys 0xABC) ∧ decodeWord 0x0000 = .ok (.sys 0) := by decide
theorem test_decode_jp : decodeWord 0b0001101010111100 = .ok (.jp 0xABC) := by decide
theorem test_decode_call : decodeWord 0b0010101010111100 = .ok (.call 0xABC) := by decide
theorem test_decode_seImm : decodeWord 0b0011000111111110 = .ok (.seImm 1 0xFE) := by decide
theorem test_decode_sneImm : decodeWord 0b0100001000000101 = .ok (.sneImm 2 0x05) := by decide
theorem test_decode_seReg : decodeWord 0b0101001101000000 = .ok (.seReg 3 4) := by decide
theorem test_decode_ldImm : decodeWord 0b0110101000111110 = .ok (.ldImm 10 0x3E) := by decide
theorem test_decode_addImm : decodeWord 0b0111111111111110 = .ok (.addImm 15 0xFE) := by decide
theorem test_decode_ldReg : decodeWord 0b1000000100100000 = .ok (.ldReg 1 2) := by decide
theorem test_decode_orReg : decodeWord 0b1000000100100001 = .ok (.orReg 1 2) := by decide
theorem test_decode_andReg : decodeWord 0b1000000100100010 = .ok (.andReg 1 2) := by decide
theorem test_decode_xorReg : decodeWord 0b1000000100100011 = .ok (.xorReg 1 2) := by decide
theorem test_decode_addReg : decodeWord 0b1000111100010100 = .ok (.addReg 15 1) := by decide
theorem test_decode_sub : decodeWord 0b1000000100100101 = .ok (.sub 1 2) := by decide
theorem test_decode_shr : decodeWord 0b1000000100100110 = .ok (.shr 1 2) := by decide
theorem test_decode_subn : decodeWord 0b1000000100100111 = .ok (.subn 1 2) := by decide
theorem test_decode_shl : decodeWord 0b1000000100101110 = .ok (.shl 1 2) := by decide
theorem test_decode_sneReg : decodeWord 0b1001000100100000 = .ok (.sneReg 1 2) := by decide
theorem test_decode_ldI : decodeWord 0b1010111111111111 = .ok (.ldI 0xFFF) := by decide
theorem test_decode_jpV0 : decodeWord 0b1011001100000000 = .ok (.jpV0 0x300) := by decide
theorem test_decode_rnd : decodeWord 0b1100001100001111 = .ok (.rnd 3 0x0F) := by decide
theorem test_decode_drw : decodeWord 0b1101000100100101 = .ok (.drw 1 2 5) := by decide
theorem test_decode_skp : decodeWord 0b1110000110011110 = .ok (.skp 1) := by decide
theorem test_decode_sknp : decodeWord 0b1110000110100001 = .ok (.sknp 1) := by decide
theorem test_decode_ldVDt : decodeWord 0b1111000100000111 = .ok (.ldVDt 1) := by decide
theorem test_decode_ldVK : decodeWord 0b1111000100001010 = .ok (.ldVK 1) := by decide
theorem test_decode_ldDtV : decodeWord 0b1111000100010101 = .ok (.ldDtV 1) := by decide
theorem test_decode_ldStV : decodeWord 0b1111000100011000 = .ok (.ldStV 1) := by decide
theorem test_decode_addI : decodeWord 0b1111000100011110 = .ok (.addI 1) := by decide
theorem test_decode_ldF : decodeWord 0b1111000100101001 = .ok (.ldF 1) := by decide
theorem test_decode_ldB : decodeWord 0b1111000100110011 = .ok (.ldB 1) := by decide
theorem test_decode_stRegs : decodeWord 0b1111000101010101 = .ok (.stRegs 1) := by decide
theorem test_decode_ldRegs : decodeWord 0b1111000101100101 = .ok (.ldRegs 1) := by decide

/-- The illegal words of 95_test_vectors.md section 2, one of each class of rule R45 or more. -/
theorem test_decode_illegal : decodeWord 0x5121 = .error .group5 ∧ decodeWord 0x8128 = .error .group8 ∧
    decodeWord 0x812D = .error .group8 ∧ decodeWord 0x812F = .error .group8 ∧ decodeWord 0x912F = .error .group9 ∧
    decodeWord 0xE19F = .error .groupE ∧ decodeWord 0xE100 = .error .groupE ∧ decodeWord 0xF100 = .error .groupF ∧
    decodeWord 0xF1FF = .error .groupF := by decide

/-- The byte at the lower address is the high one (20_memory.md rule R29). -/
theorem test_decode_bytes : decode [0x1A, 0xBC, 0x77] = .ok (.jp 0xABC, [0x77]) := by decide

/-- The host's number of a two-byte row is the word itself. -/
theorem test_decodeTableWord : decodeTableWord 16 0x1ABC = some (.jp 0xABC) ∧ decodeTableWord 16 0x5121 = none := by
  decide

/-! ### The font and the reset state (10_state.md rules R25 and R26) -/

theorem test_font_glyph_A : memReadBlock State.reset.mem 0x32 5 = [0xF0, 0x90, 0xF0, 0x90, 0x90] := by decide
theorem test_font_ends : Config.font.length = 80 ∧ State.reset.readByte 0x4F = 0x80 ∧
    State.reset.readByte 0x50 = 0 := by
  decide
theorem test_reset_memory_wf : Memory.wf State.reset.mem = true := by decide

/-! ### One step: control flow (95_test_vectors.md sections 1 and 3) -/

theorem test_sys_halts : got (step (at200 0x0123)) haltKind =
    some (some (.unsupportedSys, 0x200, some 0x0123, .none)) := by decide
theorem test_sys_nop : got (sysWith { Config.params with sysMode := .nop } 0x123 (at200 0x0123)) (·.pc) = some 0x202 := by
  decide
theorem test_jp : got (step (at200 0x1ABC)) (·.pc) = some 0x0ABC := by decide
theorem test_jp_odd : got (step (at200 0x1201)) (·.pc) = some 0x201 := by decide
theorem test_call : got (step (at200 0x2ABC)) (fun t => (t.stack[0], t.SP, t.pc)) = some (0x200, 1, 0x0ABC) := by decide
theorem test_call_overflow : got (step { at200 0x2300 with SP := 16 }) haltKind =
    some (some (.stackOverflow, 0x200, some 0x2300, .depth 16)) := by decide
theorem test_ret : got (step { (at200 0x00EE).pushReturn 0xFFE with pc := 0x200 }) (fun t => (t.SP, t.pc)) =
    some (0, 0x1000) := by decide
theorem test_ret_underflow : got (step (at200 0x00EE)) haltKind =
    some (some (.stackUnderflow, 0x200, some 0x00EE, .depth 0)) := by decide
theorem test_jpV0 : got (step (at200 0xBF01 [(0, 0xFF)])) (·.pc) = some 0x1000 := by decide
theorem test_fetch_fault : got (step { at200 0x00E0 with pc := 0x1000 }) haltKind =
    some (some (.memoryRangeFetch, 0x1000, none, .address 0x1000)) := by decide
theorem test_illegal_halts : got (step (at200 0x5121)) haltKind =
    some (some (.decodeError, 0x200, some 0x5121, .none)) := by decide

/-! ### One step: skips (section 3) -/

theorem test_seImm : got (step (at200 0x3100)) (·.pc) = some 0x204 ∧
    got (step (at200 0x3100 [(1, 1)])) (·.pc) = some 0x202 := by decide
theorem test_sneImm : got (step (at200 0x4205 [(2, 5)])) (·.pc) = some 0x202 ∧
    got (step (at200 0x4206 [(2, 5)])) (·.pc) = some 0x204 := by decide
theorem test_seReg : got (step (at200 0x5340 [(3, 0x7F), (4, 0x7F)])) (·.pc) = some 0x204 := by decide
theorem test_sneReg : got (step (at200 0x9340 [(3, 1), (4, 2)])) (·.pc) = some 0x204 ∧
    got (step (at200 0x9330)) (·.pc) = some 0x202 := by decide

/-! ### One step: ALU and immediates (section 4) -/

/-- V[x] and VF after a step. -/
def regAndFlag (x : Reg) (s : State) : Option (Byte × Byte) := got (step s) (fun t => (t.getV x, t.getV VF))

theorem test_ldReg : regAndFlag 1 (at200 0x8120 [(2, 0x42), (15, 7)]) = some (0x42, 7) := by decide
theorem test_or : regAndFlag 1 (at200 0x8121 [(1, 0xF0), (2, 0x0F), (15, 0x77)]) = some (0xFF, 0x77) := by decide
theorem test_and : regAndFlag 1 (at200 0x8122 [(1, 0xF0), (2, 0x3C), (15, 9)]) = some (0x30, 9) := by decide
theorem test_xor : regAndFlag 1 (at200 0x8123 [(1, 0xFF), (2, 0x0F), (15, 9)]) = some (0xF0, 9) := by decide
theorem test_add : regAndFlag 0 (at200 0x8014 [(0, 0xFF), (1, 0x01)]) = some (0, 1) ∧
    regAndFlag 0 (at200 0x8014 [(0, 0x80), (1, 0x7F)]) = some (0xFF, 0) := by decide
theorem test_add_VF : regAndFlag 15 (at200 0x8F14 [(15, 0xFF), (1, 1)]) = some (1, 1) ∧
    regAndFlag 1 (at200 0x81F4 [(1, 0x10), (15, 0xF1)]) = some (1, 1) := by decide
theorem test_add_resultLast : got (addWith { Config.params with vfOrder := .resultLast } 15 1
    (at200 0x8F14 [(15, 0x10), (1, 1)])) (·.getV VF) = some 0x11 := by decide
theorem test_sub : regAndFlag 0 (at200 0x8015 [(0, 1), (1, 2)]) = some (0xFF, 0) ∧
    regAndFlag 0 (at200 0x8015 [(0, 5), (1, 5)]) = some (0, 1) := by decide
theorem test_sub_VF : regAndFlag 15 (at200 0x8F15 [(15, 5), (1, 6)]) = some (0, 0) := by decide
theorem test_subn : regAndFlag 0 (at200 0x8017 [(0, 1), (1, 2)]) = some (1, 1) ∧
    regAndFlag 0 (at200 0x8017 [(0, 2), (1, 1)]) = some (0xFF, 0) := by decide
theorem test_shr : regAndFlag 0 (at200 0x8016 [(0, 0x81), (1, 0xFF)]) = some (0x40, 1) := by decide
theorem test_shr_VF : regAndFlag 15 (at200 0x8F06 [(15, 3)]) = some (1, 1) := by decide
theorem test_shl : regAndFlag 0 (at200 0x801E [(0, 0x81), (1, 0xFF)]) = some (2, 1) ∧
    regAndFlag 0 (at200 0x800E [(0, 0x40)]) = some (0x80, 0) := by decide
theorem test_ldImm : got (step (at200 0x6A3E)) (·.getV 10) = some 0x3E := by decide
theorem test_addImm : regAndFlag 1 (at200 0x71FF [(1, 5), (15, 9)]) = some (4, 9) ∧
    regAndFlag 15 (at200 0x7FFF [(15, 1)]) = some (0, 0) := by decide
theorem test_ldI : got (step (at200 0xAFFF)) (·.I) = some 0x0FFF := by decide
theorem test_rnd : got (step (withInputs (at200 0xC30F) [.cycle 0 (some 0xAB)])) (fun t => (t.getV 3, t.draws)) =
    some (0x0B, 1) := by decide
theorem test_rnd_masked_away : got (execRnd 3 0 { State.reset with rnd := none }) (·.getV 3) = some 0 := by
  simp [execRnd, got, State.setV, State.getV, State.advance]

/-! ### One step: the display (section 5) -/

/-- The lit pixels of a row. -/
def litInRow (t : State) (y : Fin 32) : List Nat :=
  ((List.finRange 64).filter (fun x => t.pixel x y)).map (·.val)

theorem test_cls : got (step { at200 0x00E0 with fb := fbSet fbClear 63 31 true }) (fun t => t.fb) = some fbClear := by
  decide
theorem test_drw_clips_right : got (step { at200 0xD011 [(0,
    0x3C)] 0x300 with mem := memWrite (at200 0xD011).mem 0x300 0xFF })
    (fun t => (litInRow t 0, t.getV VF)) = some ([60, 61, 62, 63], 0) := by decide
theorem test_drw_out_of_range : got (step (at200 0xD013 [] 0xFFE)) haltKind =
    some (some (.memoryRangeIndex, 0x200, some 0xD013, .address 0xFFE)) := by decide

/-! ### One step: the keypad (section 6) -/

theorem test_skp : got (step (withInputs (at200 0xE19E [(1, 5)]) [.cycle 0x0020 none])) (·.pc) = some 0x204 := by decide
theorem test_skp_range : got (step (at200 0xE19E [(1, 0x10)])) haltKind =
    some (some (.keyRangeError, 0x200, some 0xE19E, .key 0x10)) := by decide
theorem test_sknp : got (step (withInputs (at200 0xE1A1 [(1, 0x0F)]) [.cycle 0x8000 none])) (·.pc) = some 0x202 := by
  decide
theorem test_key_policies :
    got (skpWith { Config.params with keyRangePolicy := .lowNibble } 1 { at200 0xE19E [(1, 0x10)] with keys := 1 })
      (·.pc) = some 0x204 ∧
    got (sknpWith { Config.params with keyRangePolicy := .notPressed } 1 { at200 0xE1A1 [(1, 0x10)] with keys := 1 })
      (·.pc) = some 0x204 := by decide
theorem test_key_wait : got (step (withInputs (at200 0xF10A) [.cycle 0x0010 none])) (fun t => (t.mode, t.pc)) =
    some (.waiting 1 0x0010, 0x200) := by decide
theorem test_poll : got (step (withInputs { at200 0xF10A with mode := .waiting 1 0 } [.cycle 0x0028 none]))
    (fun t => (t.getV 1, t.mode, t.pc)) = some (3, .running, 0x202) := by decide
theorem test_poll_held : got (step (withInputs { at200 0xF10A with mode := .waiting 1 0x10 } [.cycle 0x0010 none]))
    (fun t => (t.mode, t.pc)) = some (.waiting 1 0x10, 0x200) := by decide

/-! ### One step: timers (section 7) -/

theorem test_ldVDt : got (step { at200 0xF107 with DT := 0x3C }) (·.getV 1) = some 0x3C := by decide
theorem test_ldDtV : got (step (at200 0xF015 [(0, 0x0A)])) (fun t => (t.DT, t.ST)) = some (0x0A, 0) := by decide
theorem test_ldStV : got (step (at200 0xF218 [(2, 0x0A)])) (fun t => (t.DT, t.ST)) = some (0, 0x0A) := by decide
theorem test_tick : got (step (withInputs { State.reset with ST := 3 } [.tick])) (fun t => (t.DT, t.ST)) = some (0,
    2) := by
  decide
theorem test_soundActive : State.soundActive { State.reset with ST := 1 } = true ∧ State.reset.soundActive = false := by
  decide
theorem test_tick_frozen : got (step (withInputs { State.reset with DT := 5, mode := .waiting 1 0 } [.tick])) (·.DT) =
    some 5 := by decide
theorem test_clock : got (step (withInputs { State.reset with DT := 5 } [.clock 2999999])) (fun t => (t.DT, t.tLast)) =
    some (3, 2000000) := by decide

/-! ### One step: index and memory blocks (section 7) -/

theorem test_addI : got (step (at200 0xF01E [(0, 1)] 0xFFFF)) (·.I) = some 0 ∧
    got (step (at200 0xF01E [(0, 1)] 0x0FFF)) (·.I) = some 0x1000 := by decide
theorem test_ldF : got (step (at200 0xF029 [(0, 0x1B)])) (·.I) = some 0x037 := by decide
theorem test_ldF_fontBase : got (ldFWith { Config.params with fontBase := 0x50 } 0 (at200 0xF029 [(0, 0x0A)])) (·.I) =
    some 0x082 := by decide
theorem test_bcd : got (step (at200 0xF033 [(0, 0xFE)] 0x300)) (fun t => memReadBlock t.mem 0x300 3) = some [2, 5,
    4] := by
  decide
theorem test_bcd_edge : got (step (at200 0xF033 [(0, 7)] 0xFFD)) (fun t => memReadBlock t.mem 0xFFD 3) = some [0, 0,
    7] ∧
    got (step (at200 0xF033 [(0, 7)] 0xFFE)) haltKind =
      some (some (.memoryRangeIndex, 0x200, some 0xF033, .address 0xFFE)) := by decide
theorem test_stRegs : got (step (at200 0xF155 [(0, 0x12), (1, 2)] 0x202)) (fun t => (memReadBlock t.mem 0x202 2, t.I)) =
    some ([0x12, 0x02], 0x202) := by decide
theorem test_stRegs_edge : got (step (at200 0xF055 [(0, 9)] 0xFFF)) (·.readByte 0xFFF) = some 9 ∧
    got (step (at200 0xF155 [] 0xFFF)) haltKind =
      some (some (.memoryRangeIndex, 0x200, some 0xF155, .address 0xFFF)) := by decide
theorem test_ldRegs : got (step (at200 0xF265 [(3, 9)] 0x032)) (fun t => t.V.toList.take 4) =
    some [0xF0, 0x90, 0xF0, 9] := by decide

/-! ### Reset and load (section 7) -/

theorem test_reset_from_halted : got (step (withInputs { at200 0x00E0 [(3, 9)] 7 with mode := .halted ⟨.decodeError,
    0, none, .none⟩ }
    [.reset 77])) (fun t => (t.getV 3, t.I, t.mode, t.tLast, t.readByte 0x201)) = some (0, 0, .running, 77,
    0xE0) := by decide
theorem test_load_too_long : powerOn 0 (List.replicate 3585 1) = .fault (.loadError 3585) := by
  rw [powerOn, powerOnWith, List.length_replicate]; rfl

/-! ### Witnesses: a state and operands that meet all the hypotheses of a statement, one for each clause -/

/-- Running at the last address a word can be fetched from, with a word there. -/
def atEnd (w : Word) : State := placeWord { State.reset with pc := 0xFFE } w

/-- A halted state with some inputs to come. -/
def haltedState (script : List Input) : State :=
  withInputs (haltedWith .decodeError (some 0x5121) .none (at200 0x5121)) script

/-- A state that waits for a key, with some inputs to come. -/
def waitingState (prev : KeySample) (script : List Input) : State :=
  withInputs { at200 0xF10A with mode := .waiting 1 prev } script

theorem test_witness_BytesDecodeHighByteFirst :
    Instr.wf (.sys 0x0E1) = true ∧ Instr.wf (.drw 15 15 15) = true ∧ ([0x12] : List Byte).length < 2 ∧
      ([] : List Byte).length < 2 := by decide

theorem test_witness_DecoderMatchesOpcodeTable :
    rowOf (.sys 0) ∈ opcodeRows ∧ (rowOf (.sys 0)).accepts 0x00E1 = true ∧ rowOf (.ldRegs 0) ∈ opcodeRows ∧
      (rowOf (.ldRegs 0)).accepts 0xFF65 = true := by decide

theorem test_witness_IllegalWordsRaiseDecodeError : ∃ (s u : State) (w : Word) (e : Reject), s.mode = .running ∧
    CycleStart s u ∧
    s.pc.toNat + 1 < 4096 ∧
    w.toNat = (s.readByte s.pc.toNat).toNat * 256 + (s.readByte (s.pc.toNat + 1)).toNat ∧
    decodeWord w = .error e :=
  ⟨atEnd 0x5121, _, 0x5121, .group5, rfl, .inl ⟨⟨rfl, rfl⟩, rfl⟩, by decide, by decide, by decide⟩

theorem test_witness_StepRunsTheDecodedInstruction : ∃ (s u : State) (w : Word) (i : Instr), s.mode = .running ∧
    CycleStart s u ∧
    s.pc.toNat + 1 < 4096 ∧
    w.toNat = (s.readByte s.pc.toNat).toNat * 256 + (s.readByte (s.pc.toNat + 1)).toNat ∧
    decodeWord w = .ok i :=
  ⟨withInputs (atEnd 0x8014) [.cycle 5 (some 7), .tick], _, 0x8014, .addReg 0 1, rfl, .inr ⟨5, some 7, _, .inl ⟨_, rfl, rfl⟩, rfl⟩,
    by decide, by decide, by decide⟩

theorem test_witness_FetchFaultsOnlyOutsideMemory :
    (∃ (s u : State), s.mode = .running ∧ CycleStart s u ∧ s.pc.toNat + 1 ≥ 4096) ∧
    (∃ (s u t : State) (d : Diag), s.mode = .running ∧ CycleStart s u ∧ s.pc.toNat + 1 < 4096 ∧ step s = .next t ∧
    t.mode = .halted d) :=
  ⟨⟨{ State.reset with pc := 0xFFF }, _, rfl, .inl ⟨⟨rfl, rfl⟩, rfl⟩, by decide⟩,
    ⟨atEnd 0x5121, _, _, _, rfl, .inl ⟨⟨rfl, rfl⟩, rfl⟩, by decide, rfl, rfl⟩⟩

theorem test_witness_PlacedWordRunsNext :
    Memory.wf State.reset.mem = true ∧ decodeTableWord 16 0xF155 = some (.stRegs 1) := by decide

theorem test_witness_FaultPriority :
    (∃ (s t : State) (d : Diag), s.mode = .running ∧ (∃ (u : State), CycleStart s u) ∧ step s = .next t ∧
    t.mode = .halted d ∧ s.pc = 0xFFF) ∧
    (∃ (s t : State) (d : Diag), s.mode = .running ∧ (∃ (u : State), CycleStart s u) ∧ step s = .next t ∧
    t.mode = .halted d ∧ s.pc = 0xFFE ∧
      d.kind = .decodeError) ∧
    (∃ (s t : State) (d : Diag), s.mode = .running ∧ (∃ (u : State), CycleStart s u) ∧ step s = .next t ∧
    t.mode = .halted d ∧ s.pc = 0xFFE ∧
      d.kind = .stackUnderflow) :=
  ⟨⟨{ State.reset with pc := 0xFFF }, _, _, rfl, ⟨_, .inl ⟨⟨rfl, rfl⟩, rfl⟩⟩, rfl, rfl, rfl⟩,
    ⟨atEnd 0x5121, _, _, rfl, ⟨_, .inl ⟨⟨rfl, rfl⟩, rfl⟩⟩, rfl, rfl, rfl, rfl⟩,
    ⟨atEnd 0x00EE, _, _, rfl, ⟨_, .inl ⟨⟨rfl, rfl⟩, rfl⟩⟩, rfl, rfl, rfl, rfl⟩⟩

theorem test_witness_FaultsArePrecise :
    (∃ (i : Instr) (s t : State) (d : Diag), s.mode = .running ∧ exec i s = .next t ∧ t.mode = .halted d) ∧
    (∃ (s u t : State) (d : Diag), s.mode = .running ∧ CycleStart s u ∧ step s = .next t ∧ t.mode = .halted d) :=
  ⟨⟨.ret, State.reset, _, _, rfl, rfl, rfl⟩, ⟨at200 0x00EE, _, _, _, rfl, .inl ⟨⟨rfl, rfl⟩, rfl⟩, rfl, rfl⟩⟩

theorem test_witness_HaltedUntilReset :
    (∃ (s : State) (d : Diag), s.mode = .halted d ∧ NoInput s) ∧
    (∃ (s u : State) (d : Diag) (keys : KeySample) (rnd : Option Byte), s.mode = .halted d ∧
      NextInput s (.cycle keys rnd) u) ∧
    (∃ (s u : State) (d : Diag), s.mode = .halted d ∧ NextInput s .tick u) ∧
    (∃ (s u : State) (d : Diag) (now : Nat), s.mode = .halted d ∧ NextInput s (.clock now) u) ∧
    (∃ (s u : State) (d : Diag) (now : Nat), s.mode = .halted d ∧ NextInput s (.reset now) u) :=
  ⟨⟨haltedState [], _, rfl, rfl, rfl⟩, ⟨haltedState [.cycle 3 none], _, _, 3, none, rfl, .inl ⟨_, rfl, rfl⟩⟩,
    ⟨{ haltedState [] with plan := .repeats .tick [] }, _, _, rfl, .inr ⟨rfl, .inl ⟨_, rfl, rfl⟩⟩⟩,
    ⟨haltedState [.clock 5, .tick], _, _, 5, rfl, .inl ⟨_, rfl, rfl⟩⟩,
    ⟨haltedState [.reset 5], _, _, 5, rfl, .inl ⟨_, rfl, rfl⟩⟩⟩

theorem test_witness_HostExitEndsTheRun : ∃ s u : State, NextInput s .exit u :=
  ⟨haltedState [.exit, .tick], _, .inl ⟨_, rfl, rfl⟩⟩

/-- The three ways the next input can come: from the script, from a plan that repeats, and from a free host. -/
theorem test_witness_NextInput : (∃ s u : State, NextInput s .exit u ∧ s.script ≠ []) ∧
    (∃ s u : State, NextInput s .exit u ∧ s.script = []) ∧
    (∃ s u : State, NextInput s (Config.freeInput s.taken) u ∧ u.taken = 1) :=
  ⟨⟨haltedState [.exit], _, .inl ⟨_, rfl, rfl⟩, nofun⟩,
    ⟨{ State.reset with plan := .repeats .exit [.tick] }, _, .inr ⟨rfl, .inl ⟨_, rfl, rfl⟩⟩, rfl⟩,
    ⟨{ State.reset with plan := .free }, _, .inr ⟨rfl, .inr ⟨rfl, rfl, rfl⟩⟩, rfl⟩⟩

theorem test_witness_ResetSetsTheInitialState : ∃ (s u : State) (now : Nat), NextInput s (.reset now) u :=
  ⟨waitingState 1 [.reset 9, .tick], _, 9, .inl ⟨_, rfl, rfl⟩⟩

theorem test_witness_ResetIsIdempotent : ∃ (s u t v : State) (now now' : Nat), NextInput s (.reset now) u ∧
    step s = .next t ∧ NextInput t (.reset now') v :=
  ⟨haltedState [.reset 9, .reset 10], _, _, _, 9, 10, .inl ⟨_, rfl, rfl⟩, rfl, .inl ⟨_, rfl, rfl⟩⟩

theorem test_witness_LoadBuildsTheFirstState :
    (∃ image : List Byte, image.length > 3584) ∧ (∃ image : List Byte, image.length = 3584) ∧
      ∃ a : Nat, a < 4096 ∧ ¬ a < 80 ∧ ¬ (0x200 ≤ a ∧ a < 0x200 + 0) :=
  ⟨⟨List.replicate 3585 1, by rw [List.length_replicate]; omega⟩, ⟨List.replicate 3584 1, List.length_replicate⟩,
    ⟨80, by omega, by omega, by omega⟩⟩

theorem test_witness_MemoryFormIsCanonical : ∃ m m' : Memory, Memory.wf m = true ∧ Memory.wf m' = true ∧
    (∀ a, a < 4096 → memRead m a = memRead m' a) ∧ m.length = 2 :=
  ⟨[(0x000, 0xF1), (0xFFF, 1)], [(0x000, 0xF1), (0xFFF, 1)], by decide, by decide, fun _ _ => rfl, rfl⟩

theorem test_witness_InvariantHoldsAfterLoad : ∃ (t : State), powerOn 7 [0x12, 0x00] = .next t := ⟨_, rfl⟩

theorem test_witness_StepKeepsInvariant : ∃ (s t : State), Inv s ∧ step s = .next t ∧ s.mode = .running ∧ s.SP = 1 :=
  ⟨(at200 0x00EE).pushReturn 0xFFE, _, ⟨by decide, by decide, by decide, nofun, nofun⟩, rfl, rfl, rfl⟩

theorem test_witness_StepKeepsInvariant_waiting_and_halted :
    (∃ (s t : State), Inv s ∧ step s = .next t ∧ s.mode = .waiting 1 0) ∧ (∃ (s t : State) (d : Diag), Inv s ∧
    step s = .next t ∧ s.mode = .halted d) :=
  ⟨⟨waitingState 0 [.cycle 0x8000 none], _, ⟨by decide, by decide, by decide, fun _ _ _ => by decide, nofun⟩, rfl, rfl⟩,
    ⟨haltedState [.reset 3], _, _,
      ⟨by decide, by decide, by decide, nofun, by rintro d ⟨⟩; exact ⟨rfl, by decide⟩⟩, rfl, rfl⟩⟩

theorem test_witness_InstructionsWriteOnlyTheirParts :
    (∃ (t : State), exec (.shl 3 4) State.reset = .next t) ∧ (∃ (t : State),
    exec .ret State.reset = .next t) := ⟨⟨_, rfl⟩, ⟨_, rfl⟩⟩

theorem test_witness_PcActionOfEachInstruction : ∃ (i : Instr) (s t : State), s.mode = .running ∧ exec i s = .next t ∧
    (∀ d, t.mode ≠ .halted d) ∧ s.SP = 16 :=
  ⟨.ret, { State.reset with SP := 16 }, _, rfl, rfl, nofun, rfl⟩

theorem test_witness_OnlyKeypadInstructionsReadKeys : ∃ (i : Instr) (s t : State),
    (∀ x, i ≠ .skp x ∧ i ≠ .sknp x ∧ i ≠ .ldVK x) ∧ exec i s = .next t :=
  ⟨.ldVDt 3, State.reset, _, fun _ => ⟨nofun, nofun, nofun⟩, rfl⟩

theorem test_witness_NoInstructionReadsSoundTimer :
    (∃ (i : Instr) (s t : State), exec i s = .next t ∧ ∀ x, i ≠ .ldStV x) ∧ (∃ (i : Instr) (s t : State) (x : Reg),
    exec i s = .next t ∧ i = .ldStV x) :=
  ⟨⟨.ldVDt 3, State.reset, _, rfl, nofun⟩, ⟨.ldStV 3, State.reset, _, 3, rfl, rfl⟩⟩

theorem test_witness_DeadStackEntriesAreUnobservable : ∃ (i : Instr) (s t : State), ∃ stack' : Vector Word 16,
    (∀ j : Fin 16, j.val < s.SP.val → stack'[j] = s.stack[j]) ∧ exec i s = .next t ∧ s.SP = 1 ∧ stack' ≠ s.stack :=
  ⟨.ret, State.reset.pushReturn 0xFFE, _, (State.reset.pushReturn 0xFFE).stack.set 1 7, by decide, rfl, rfl, by decide⟩

theorem test_witness_SysRaisesUnsupportedSys : ∃ p : Params, p.sysMode = .nop :=
  ⟨{ Config.params with sysMode := .nop }, rfl⟩

theorem test_witness_CallPushesItsAddress :
    (∃ s : State, s.SP.val < 16 ∧ s.SP.val = 15) ∧ (∃ s : State, s.SP.val = 16) :=
  ⟨⟨{ State.reset with SP := 15 }, by decide, rfl⟩, ⟨{ State.reset with SP := 16 }, rfl⟩⟩

theorem test_witness_ReturnPopsAndResumes :
    (∃ s : State, ∃ j : Fin 16, s.SP.val = j.val + 1 ∧ j = 15) ∧ (∃ s : State, s.SP.val = 0) :=
  ⟨⟨{ State.reset with SP := 16 }, 15, rfl, rfl⟩, ⟨State.reset, rfl⟩⟩

theorem test_witness_CallThenReturnRoundTrip : ∃ s : State, s.SP.val < 16 ∧ s.SP.val = 15 :=
  ⟨{ State.reset with SP := 15 }, by decide, rfl⟩

theorem test_witness_LogicInstructions : ∃ p : Params, p.logicVfReset = true :=
  ⟨{ Config.params with logicVfReset := true }, rfl⟩

theorem test_witness_x_other_than_VF : ∃ x : Reg, x ≠ VF ∧ x = 14 := ⟨14, by decide, rfl⟩

theorem test_witness_ShiftsReportTheBitShiftedOut : ∃ p : Params, p.shiftSource = .vy :=
  ⟨{ Config.params with shiftSource := .vy }, rfl⟩

theorem test_witness_FlagWriteOrder :
    (∃ p : Params, p.shiftSource = .vx ∧ p.vfOrder = .flagLast) ∧
      (∃ p : Params, p.shiftSource = .vx ∧ p.vfOrder = .resultLast) :=
  ⟨⟨Config.params, rfl, rfl⟩, ⟨{ Config.params with vfOrder := .resultLast }, rfl, rfl⟩⟩

theorem test_witness_RandomByteIsMasked :
    (∃ s : State, s.rnd = some 0xAB) ∧ (∃ s : State, s.rnd = none) :=
  ⟨⟨{ State.reset with rnd := some 0xAB }, rfl⟩, ⟨State.reset, rfl⟩⟩

theorem test_witness_DrawFlipsTheSpritesPixels :
    (∃ s : State, ∃ n : Fin 16, n = 15 ∧ s.I.toNat + n.val - 1 < 4096 ∧ ¬ s.I.toNat + n.val < 4096) ∧
    (∃ s : State, ∃ n : Fin 16, n.val = 0 ∧ s.I = 0xFFFF) ∧
    (∃ s : State, ∃ n : Fin 16, n.val > 0 ∧ s.I.toNat + n.val - 1 ≥ 4096 ∧ n = 1 ∧ s.I = 0x1000) ∧
    (∃ p : Params, p.drawStartWrap = true) :=
  ⟨⟨{ State.reset with I := 0xFF1 }, 15, rfl, by decide, by decide⟩, ⟨{ State.reset with I := 0xFFFF }, 0, rfl, rfl⟩,
    ⟨{ State.reset with I := 0x1000 }, 1, by decide, by decide, rfl, rfl⟩,
    ⟨{ Config.params with drawStartWrap := true }, rfl⟩⟩

theorem test_witness_DrawingTwiceRestoresTheDisplay : ∃ x y : Reg, ∃ n : Fin 16, ∃ s : State, x ≠ VF ∧ y ≠ VF ∧
    (n.val = 0 ∨ s.I.toNat + n.val - 1 < 4096) ∧ ∃ (X : Fin 64) (Y : Fin 32),
      SpriteHits s (s.getV x).toNat (s.getV y).toNat n.val X Y ∧ s.pixel X Y = false :=
  ⟨1, 2, 5, State.reset, by decide, by decide, .inr (by decide), 0, 4, ⟨by decide, by decide, by decide, by decide,
    by decide⟩,
    by decide⟩

theorem test_witness_KeySkips :
    (∃ s : State, (s.getV 1).toNat < 16 ∧ true = s.keys.getLsbD (s.getV 1).toNat ∧ s.getV 1 = 15) ∧
    (∃ s : State, (s.getV 1).toNat ≥ 16 ∧ s.getV 1 = 16) ∧
    (∃ (p : Params) (s : State), (s.getV 1).toNat ≥ 16 ∧ p.keyRangePolicy = .lowNibble ∧
      true = s.keys.getLsbD ((s.getV 1).toNat % 16)) ∧
    (∃ (p : Params) (s : State), (s.getV 1).toNat ≥ 16 ∧ p.keyRangePolicy = .notPressed) :=
  ⟨⟨{ at200 0xE19E [(1, 15)] with keys := 0x8000 }, by decide, by decide, by decide⟩,
    ⟨at200 0xE19E [(1, 16)], by decide, by decide⟩,
    ⟨{ Config.params with keyRangePolicy := .lowNibble }, { at200 0xE19E [(1, 16)] with keys := 1 }, by decide, rfl,
      by decide⟩,
    ⟨{ Config.params with keyRangePolicy := .notPressed }, at200 0xE19E [(1, 255)], by decide, rfl⟩⟩

theorem test_witness_PollEndsOnTheLowestFreshKey :
    (∃ (s u : State) (x : Reg) (prev keys : KeySample) (rnd : Option Byte),
      s.mode = .waiting x prev ∧ NextInput s (.cycle keys rnd) u ∧ ∃ k : Fin 16,
      (keys.getLsbD k.val = true ∧ prev.getLsbD k.val = false) ∧
      (∀ j : Fin 16, j < k → ¬ (keys.getLsbD j.val = true ∧ prev.getLsbD j.val = false)) ∧ k = 15) ∧
    (∃ (s u : State) (x : Reg) (prev keys : KeySample) (rnd : Option Byte),
      s.mode = .waiting x prev ∧ NextInput s (.cycle keys rnd) u ∧
      ∀ k : Fin 16, ¬ (keys.getLsbD k.val = true ∧ prev.getLsbD k.val = false)) :=
  ⟨⟨waitingState 0x0010 [.cycle 0x8010 none], _, 1, 0x0010, 0x8010, none, rfl, .inl ⟨_, rfl, rfl⟩, 15, by decide,
      by decide, rfl⟩,
    ⟨waitingState 0x0010 [.cycle 0x0010 none], _, 1, 0x0010, 0x0010, none, rfl, .inl ⟨_, rfl, rfl⟩, by decide⟩⟩

theorem test_witness_TickCountsBothTimersDown :
    (∃ s u : State, NextInput s .tick u ∧ s.mode = .running ∧ s.DT = 0 ∧ s.ST = 255) ∧
    (∃ s u : State, NextInput s .tick u ∧ s.mode ≠ .running) ∧
    (∃ (p : Params) (s : State) (x : Reg) (prev : KeySample), s.mode = .waiting x prev ∧
      p.timersDuringWait = .ticking) :=
  ⟨⟨withInputs { State.reset with ST := 255 } [.tick], _, .inl ⟨_, rfl, rfl⟩, rfl, rfl, rfl⟩,
    ⟨waitingState 0 [.tick], _, .inl ⟨_, rfl, rfl⟩, nofun⟩,
    ⟨{ Config.params with timersDuringWait := .ticking }, waitingState 0 [], 1, 0, rfl, rfl⟩⟩

theorem test_witness_TicksReachZeroAndStay : ∃ s : State, s.mode = .running ∧
    s.script = List.replicate 11 .tick ++ [.exit] ∧ s.DT = 10 :=
  ⟨withInputs { State.reset with DT := 10 } (List.replicate 11 .tick ++ [.exit]), rfl, rfl, rfl⟩

theorem test_witness_TimebaseTicksOncePerInterval :
    (∃ s u : State, NextInput s (.clock 1000000) u ∧ s.mode = .running ∧ s.tLast = 0) ∧
    (∃ s u : State, NextInput s (.clock 999999) u ∧ s.mode = .running ∧ s.tLast = 0) ∧
    (∃ s u : State, NextInput s (.clock 1000000) u ∧ s.mode ≠ .running) :=
  ⟨⟨withInputs State.reset [.clock 1000000], _, .inl ⟨_, rfl, rfl⟩, rfl, rfl⟩,
    ⟨withInputs State.reset [.clock 999999], _, .inl ⟨_, rfl, rfl⟩, rfl, rfl⟩,
    ⟨waitingState 0 [.clock 1000000], _, .inl ⟨_, rfl, rfl⟩, nofun⟩⟩

theorem test_witness_BcdStoresThreeDigits :
    (∃ s : State, Memory.wf s.mem = true ∧ s.I.toNat + 2 < 4096 ∧ s.I = 0xFFD) ∧
    (∃ s : State, Memory.wf s.mem = true ∧ s.I.toNat + 2 ≥ 4096 ∧ s.I = 0xFFE) :=
  ⟨⟨{ State.reset with I := 0xFFD }, by decide, by decide, rfl⟩, ⟨{ State.reset with I := 0xFFE }, by decide,
    by decide, rfl⟩⟩

theorem test_witness_block_statements :
    (∃ s : State, ∃ x : Reg, Memory.wf s.mem = true ∧ s.I.toNat + x.val < 4096 ∧ x = 15 ∧ s.I = 0xFF0) ∧
    (∃ s : State, ∃ x : Reg, Memory.wf s.mem = true ∧ s.I.toNat + x.val ≥ 4096 ∧ x = 15 ∧ s.I = 0xFF1) ∧
    (∃ (p : Params) (s : State) (x : Reg), p.blockIIncrement = true ∧ s.I.toNat + x.val < 4096) :=
  ⟨⟨{ State.reset with I := 0xFF0 }, 15, by decide, by decide, rfl, rfl⟩,
    ⟨{ State.reset with I := 0xFF1 }, 15, by decide, by decide, rfl, rfl⟩,
    ⟨{ Config.params with blockIIncrement := true }, State.reset, 0, rfl, by decide⟩⟩

theorem test_witness_StoredWordIsFetchedNext : ∃ (s t u : State) (x k : Reg) (i : Instr), Memory.wf s.mem = true ∧
    s.mode = .running ∧ s.I.toNat + x.val < 4096 ∧ k < x ∧ s.I.toNat + k.val = s.pc.toNat + 2 ∧
    decodeWord (BitVec.ofNat 16 ((s.getV k).toNat * 256 + (s.getV (k + 1)).toNat)) = .ok i ∧
    exec (.stRegs x) s = .next t ∧ CycleStart t u :=
  ⟨at200 0xF155 [(0, 0x12), (1, 0x02)] 0x202, _, _, 1, 0, .jp 0x202, by decide, rfl, by decide, by decide, by decide,
    by decide, rfl, .inl ⟨⟨rfl, rfl⟩, rfl⟩⟩

theorem test_witness_ProgressNeedsFairness_unfair :
    (∃ s : State, s.mode = .running ∧ s.script = [] ∧ s.plan = .repeats .tick [] ∧ s.DT = 5) ∧
    (∃ (s : State) (nnn : Addr12), s.mode = .running ∧ NoInput s ∧ s.pc.toNat = nnn.toNat ∧ s.pc.toNat + 1 < 4096 ∧
      decodeWord (fetchWord s) = .ok (.jp nnn) ∧ s.DT = 5) :=
  ⟨⟨{ State.reset with plan := .repeats .tick [], DT := 5 }, rfl, rfl, rfl, rfl⟩,
    ⟨{ at200 0x1200 with DT := 5 }, 0x200, rfl, ⟨rfl, rfl⟩, rfl, by decide, by decide, rfl⟩⟩

/-- A fair run: a jump to itself under a host that gives, over and over, a core step and a tick. DT is 1 for the first
round. -/
def fairRun (n : Nat) : State :=
  { at200 0x1200 with
    plan   := .repeats (.cycle 0 none) [.tick]
    script := if n % 2 = 0 then [] else [.tick]
    DT     := if n < 2 then 1 else 0 }

theorem fairRun_even {n : Nat} (h : n % 2 = 0) : (fairRun n).script = [] := by simp [fairRun, h]

theorem fairRun_odd {n : Nat} (h : n % 2 = 1) : (fairRun n).script = [.tick] := by simp [fairRun, h]

theorem fairRun_step (n : Nat) : step (fairRun n) = .next (fairRun (n + 1)) := by
  rcases Nat.mod_two_eq_zero_or_one n with h | h
  · have h' : (n + 1) % 2 = 1 := by omega
    have hd : n + 1 < 2 ↔ n < 2 := by omega
    simp only [fairRun, h, h', hd]
    by_cases hn : n < 2 <;> simp only [hn, if_true, if_false] <;> rfl
  · have h' : (n + 1) % 2 = 0 := by omega
    have hd : ¬ n + 1 < 2 := by omega
    simp only [fairRun, h, h', hd]
    by_cases hn : n < 2 <;> simp only [hn, if_true, if_false] <;> rfl

theorem test_witness_ProgressNeedsFairness_fair : FairRun fairRun ∧
    ∀ m, 0 ≤ m → (fairRun m).mode = .running ∧ (fairRun (m + 1)).DT.toNat ≤ (fairRun m).DT.toNat := by
  refine ⟨⟨fairRun_step, fun n => ⟨2 * n, by omega, .inl ?_⟩, fun n => ⟨2 * n + 1, by omega, .inl (.inl ?_)⟩⟩,
    fun m _ => ⟨rfl, ?_⟩⟩
  · exact ⟨_, .inr ⟨0, none, _, .inr ⟨fairRun_even (by omega), .inl ⟨_, rfl, rfl⟩⟩, rfl⟩⟩
  · exact ⟨_, .inl ⟨_, fairRun_odd (by omega), rfl⟩⟩
  · by_cases h1 : m + 1 < 2
    · have h0 : m < 2 := by omega
      simp [fairRun, h1, h0]
    · simp [fairRun, h1]

theorem test_witness_InstructionsKeepMemoryCanonical : ∃ (i : Instr) (s t : State), Memory.wf s.mem = true ∧
    exec i s = .next t ∧ t.mem ≠ s.mem :=
  ⟨.ldB 0, at200 0xF033 [(0, 0xFE)] 0xFFD, _, by decide, rfl, by decide⟩

end Sys2Proof.Tests
end

section
/-! SUPPORT. The frame rules: what each update of the state, and each way a meaning ends, leaves unchanged. -/

namespace Sys2Proof.Machine

/-! ### One frame rule per update -/

variable {regs : List Reg} {parts : List Part} {s t : State}

theorem FrameBut.refl (regs : List Reg) (parts : List Part) (s : State) : FrameBut regs parts s s :=
  ⟨fun _ _ => rfl, fun p _ => by cases p <;> simp [Kept]⟩

/-- A frame may allow more to change. -/
theorem FrameBut.mono {regs' : List Reg} {parts' : List Part} (h : FrameBut regs parts s t) (hr : regs ⊆ regs')
    (hp : parts ⊆ parts') : FrameBut regs' parts' s t :=
  ⟨fun r hn => h.1 r fun hm => hn (hr hm), fun p hn => h.2 p fun hm => hn (hp hm)⟩

theorem FrameBut.setV {r : Reg} {v : Byte} (h : FrameBut regs parts s t) (hr : r ∈ regs) :
    FrameBut regs parts s (t.setV r v) := by
  refine ⟨fun q hq => ?_, fun p hp => by cases p <;> exact h.2 _ hp⟩
  have hne : q ≠ r := fun e => hq (e ▸ hr)
  rw [getV_setV_other _ _ hne, h.1 q hq]

theorem FrameBut.setRegFile {file : Vector Byte 16} (h : FrameBut regs parts s t)
    (hf : ∀ r, r ∉ regs → file[r] = t.V[r]) : FrameBut regs parts s (t.setRegFile file) :=
  ⟨fun r hr => (hf r hr).trans (h.1 r hr), fun p hp => by cases p <;> exact h.2 _ hp⟩

theorem FrameBut.setPc {a : Word} (h : FrameBut regs parts s t) : FrameBut regs parts s (t.setPc a) :=
  ⟨h.1, fun p hp => by cases p <;> exact h.2 _ hp⟩

theorem FrameBut.advance {k : Nat} (h : FrameBut regs parts s t) : FrameBut regs parts s (t.advance k) :=
  ⟨h.1, fun p hp => by cases p <;> exact h.2 _ hp⟩

theorem FrameBut.setI {a : Word} (h : FrameBut regs parts s t) (hi : .index ∈ parts) :
    FrameBut regs parts s (t.setI a) := by
  refine ⟨h.1, fun p hp => ?_⟩
  cases p with
  | index => exact absurd hi hp
  | _ => exact h.2 _ hp

theorem FrameBut.setDT {v : Byte} (h : FrameBut regs parts s t) (hd : .delayTimer ∈ parts) :
    FrameBut regs parts s (t.setDT v) := by
  refine ⟨h.1, fun p hp => ?_⟩
  cases p with
  | delayTimer => exact absurd hd hp
  | _ => exact h.2 _ hp

theorem FrameBut.setST {v : Byte} (h : FrameBut regs parts s t) (hs : .soundTimer ∈ parts) :
    FrameBut regs parts s (t.setST v) := by
  refine ⟨h.1, fun p hp => ?_⟩
  cases p with
  | soundTimer => exact absurd hs hp
  | _ => exact h.2 _ hp

theorem FrameBut.setMode {m : Mode} (h : FrameBut regs parts s t) (hm : .mode ∈ parts) :
    FrameBut regs parts s (t.setMode m) := by
  refine ⟨h.1, fun p hp => ?_⟩
  cases p with
  | mode => exact absurd hm hp
  | _ => exact h.2 _ hp

theorem FrameBut.setFb {fb : Framebuffer} (h : FrameBut regs parts s t) (hd : .display ∈ parts) :
    FrameBut regs parts s (t.setFb fb) := by
  refine ⟨h.1, fun p hp => ?_⟩
  cases p with
  | display => exact absurd hd hp
  | _ => exact h.2 _ hp

theorem FrameBut.setMem {m : Memory} (h : FrameBut regs parts s t) (hm : .memory ∈ parts) :
    FrameBut regs parts s (t.setMem m) := by
  refine ⟨h.1, fun p hp => ?_⟩
  cases p with
  | memory => exact absurd hm hp
  | _ => exact h.2 _ hp

theorem FrameBut.pushReturn {a : Word} (h : FrameBut regs parts s t) (hs : .stack ∈ parts) :
    FrameBut regs parts s (t.pushReturn a) := by
  refine ⟨h.1, fun p hp => ?_⟩
  cases p with
  | stack => exact absurd hs hp
  | _ => exact h.2 _ hp

theorem FrameBut.popReturn (h : FrameBut regs parts s t) (hs : .stack ∈ parts) :
    FrameBut regs parts s t.popReturn := by
  refine ⟨h.1, fun p hp => ?_⟩
  cases p with
  | stack => exact absurd hs hp
  | _ => exact h.2 _ hp

theorem FrameBut.drawn (h : FrameBut regs parts s t) (hr : .random ∈ parts) : FrameBut regs parts s t.drawn := by
  refine ⟨h.1, fun p hp => ?_⟩
  cases p with
  | random => exact absurd hr hp
  | _ => exact h.2 _ hp

/-! ### The shared operations -/

theorem FrameBut.writeWithFlag {order : VfOrder} {x : Reg} {res : Byte} {flag : Bool} (h : FrameBut regs parts s t)
    (hx : x ∈ regs) (hf : VF ∈ regs) : FrameBut regs parts s (writeWithFlag order x res flag t) := by
  cases order with
  | flagLast => exact (h.setV hx).setV hf
  | resultLast => exact (h.setV hf).setV hx

theorem FrameBut.writeLogic {vfReset : Bool} {x : Reg} {res : Byte} (h : FrameBut regs parts s t) (hx : x ∈ regs)
    (hf : vfReset = true → VF ∈ regs) : FrameBut regs parts s (writeLogic vfReset x res t) := by
  cases vfReset with
  | false => exact h.setV hx
  | true => exact (h.setV hx).setV (hf rfl)

theorem FrameBut.blockIndex {increment : Bool} {x : Reg} (h : FrameBut regs parts s t)
    (hi : increment = true → .index ∈ parts) : FrameBut regs parts s (blockIndex increment x t) := by
  cases increment with
  | false => exact h
  | true => exact h.setI (hi rfl)

theorem FrameBut.drawSprite {px0 py0 : Nat} {rows : List Byte} (h : FrameBut regs parts s t) (hf : VF ∈ regs)
    (hd : .display ∈ parts) : FrameBut regs parts s (drawSprite px0 py0 rows t) :=
  (h.setFb hd).setV hf

/-- A block of bytes written to the registers from V0 on leaves every register after the block alone. -/
theorem FrameBut.setRegs {vs : List Byte} (h : FrameBut regs parts s t)
    (hr : ∀ r : Reg, r.val < vs.length → r ∈ regs) : FrameBut regs parts s (t.setRegFile (setRegs t.V 0 vs)) := by
  refine h.setRegFile fun r hn => ?_
  have hout : ¬(0 ≤ r.val ∧ r.val < 0 + vs.length) := fun hin => hn (hr r (by omega))
  rw [getElem_setRegs, if_neg hout]

/-! ### The ways a meaning ends -/

/-- If the outcome of a meaning is a next state, nothing has changed since `s` but these registers and parts. -/
def EndsInFrame (regs : List Reg) (parts : List Part) (s : State) (o : Host.Outcome State Fault Refusal) : Prop :=
  ∀ t, o = .next t → FrameBut regs parts s t

theorem EndsInFrame.next (h : FrameBut regs parts s t) : EndsInFrame regs parts s (.next t) := by
  rintro _ ⟨⟩
  exact h

theorem EndsInFrame.ite {c : Prop} [Decidable c] {a b : Host.Outcome State Fault Refusal}
    (ha : EndsInFrame regs parts s a) (hb : EndsInFrame regs parts s b) :
    EndsInFrame regs parts s (if c then a else b) := by
  split
  · exact ha
  · exact hb

theorem EndsInFrame.raiseFault {kind : FaultKind} {word : Option Word} {detail : Detail} (hm : .mode ∈ parts) :
    EndsInFrame regs parts s (raiseFault kind word detail s) :=
  .next ((haltedWith_frame kind word detail s).mono (by simp) (by simpa using hm))

theorem EndsInFrame.skipIf {taken : Bool} : EndsInFrame regs parts s (skipIf taken s) :=
  .next (FrameBut.refl regs parts s).advance

theorem EndsInFrame.skpWith {p : Params} {x : Reg} (hm : .mode ∈ parts) :
    EndsInFrame regs parts s (skpWith p x s) := by
  unfold Machine.skpWith
  split
  · exact .raiseFault hm
  · exact .skipIf

theorem EndsInFrame.sknpWith {p : Params} {x : Reg} (hm : .mode ∈ parts) :
    EndsInFrame regs parts s (sknpWith p x s) := by
  unfold Machine.sknpWith
  split
  · exact .raiseFault hm
  · exact .skipIf

/-- The registers and parts named for each instruction (10_state.md rules R14 to R22) are all it writes: each arm's
frame is put together from the rules of the updates it makes. -/
theorem exec_endsInFrame (i : Instr) (s : State) : EndsInFrame (regsWritten i) (partsWritten i) s (exec i s) := by
  have start := FrameBut.refl (regsWritten i) (partsWritten i) s
  cases i with
  | jp _ | jpV0 _ => exact .next start.setPc
  | seImm _ _ | sneImm _ _ | seReg _ _ | sneReg _ _ => exact .skipIf
  | skp _ => exact .skpWith (by simp [partsWritten])
  | sknp _ => exact .sknpWith (by simp [partsWritten])
  | sys _ => exact .raiseFault (by simp [partsWritten])
  | call _ =>
    exact .ite (.raiseFault (by simp [partsWritten])) (.next (start.pushReturn (by simp [partsWritten])).setPc)
  | ret => exact .ite (.raiseFault (by simp [partsWritten])) (.next (start.popReturn (by simp [partsWritten])).setPc)
  | ldImm _ _ | addImm _ _ | ldReg _ _ | ldVDt _ => exact .next (start.setV (by simp [regsWritten])).advance
  | orReg _ _ | andReg _ _ | xorReg _ _ =>
    exact .next (start.writeLogic (by simp [regsWritten]) (by simp [Config.params])).advance
  | addReg _ _ | sub _ _ | subn _ _ | shr _ _ | shl _ _ =>
    exact .next (start.writeWithFlag (by simp [regsWritten]) (by simp [regsWritten])).advance
  | rnd _ _ => exact .next ((start.drawn (by simp [partsWritten])).setV (by simp [regsWritten])).advance
  | ldI _ | addI _ | ldF _ => exact .next (start.setI (by simp [partsWritten])).advance
  | ldDtV _ => exact .next (start.setDT (by simp [partsWritten])).advance
  | ldStV _ => exact .next (start.setST (by simp [partsWritten])).advance
  | ldVK _ => exact .next (start.setMode (by simp [partsWritten]))
  | cls => exact .next (start.setFb (by simp [partsWritten])).advance
  | drw _ _ _ =>
    exact .ite (.raiseFault (by simp [partsWritten]))
      (.next (start.drawSprite (by simp [regsWritten]) (by simp [partsWritten])).advance)
  | ldB _ =>
    exact .ite (.next (start.setMem (by simp [partsWritten])).advance) (.raiseFault (by simp [partsWritten]))
  | stRegs _ =>
    exact .ite (.next ((start.setMem (by simp [partsWritten])).blockIndex (by simp [Config.params])).advance)
      (.raiseFault (by simp [partsWritten]))
  | ldRegs x =>
    have hblock : ∀ r : Reg, r.val < (memReadBlock s.mem s.I.toNat (x.val + 1)).length →
        r ∈ regsWritten (.ldRegs x) := by
      simp [length_memReadBlock, regsWritten]
    exact .ite (.next ((start.setRegs hblock).blockIndex (by simp [Config.params])).advance)
      (.raiseFault (by simp [partsWritten]))

/-- Settles O21: the frame of each instruction. -/
theorem instructionsWriteOnlyTheirParts : Obligations.InstructionsWriteOnlyTheirParts :=
  fun i s => exec_endsInFrame i s

end Sys2Proof.Machine
end

section
/-! SUPPORT. The fields few instructions read: the sound timer, the call stack and the key sample. Every other
instruction neither reads nor writes them, so changing them before it is changing them after it. -/

namespace Sys2Proof.Machine

/-! ### Changing a field that is not read -/

/-- Change what ST, the stack's entries and the key sample hold. -/
def State.mapHidden (sound : Byte → Byte) (entries : Vector Word 16 → Vector Word 16)
    (sample : KeySample → KeySample) (s : State) : State :=
  { s with ST := sound s.ST, stack := entries s.stack, keys := sample s.keys }

/-- Change the next state an outcome ends in. -/
def mapNext (f : State → State) : Host.Outcome State Fault Refusal → Host.Outcome State Fault Refusal
  | .next t    => .next (f t)
  | .fault r   => .fault r
  | .refused r => .refused r

@[simp] theorem mapNext_next (f : State → State) (t : State) : mapNext f (.next t) = .next (f t) := rfl

/-- Both branches of a check, taken one by one. -/
theorem mapNext_ite {f : State → State} {c : Prop} [Decidable c] {a b a' b' : Host.Outcome State Fault Refusal}
    (ha : a' = mapNext f a) (hb : b' = mapNext f b) : (if c then a' else b') = mapNext f (if c then a else b) := by
  rw [ha, hb, apply_ite (mapNext f)]

section
variable (sound : Byte → Byte) (entries : Vector Word 16 → Vector Word 16) (sample : KeySample → KeySample)
variable (p : Params) (x : Reg) (s : State)

theorem pressed_mapHidden (policy : KeyRangePolicy) :
    pressed policy (s.mapHidden sound entries id).keys ((s.mapHidden sound entries id).getV x) =
      pressed policy s.keys (s.getV x) :=
  rfl

/-- SKP reads the key sample, but neither ST nor the stack. -/
theorem skpWith_mapHidden :
    skpWith p x (s.mapHidden sound entries id) = mapNext (·.mapHidden sound entries id) (skpWith p x s) := by
  rw [skpWith, skpWith, pressed_mapHidden]
  cases pressed p.keyRangePolicy s.keys (s.getV x) <;> rfl

/-- SKNP reads the key sample, but neither ST nor the stack. -/
theorem sknpWith_mapHidden :
    sknpWith p x (s.mapHidden sound entries id) = mapNext (·.mapHidden sound entries id) (sknpWith p x s) := by
  rw [sknpWith, sknpWith, pressed_mapHidden]
  cases pressed p.keyRangePolicy s.keys (s.getV x) <;> rfl

/-- An instruction and a change of the hidden fields can be done in either order, where Fx18 finds ST unchanged, CALL
and RET find the stack unchanged, and the keypad's instructions find the keys unchanged. -/
theorem exec_mapHidden (i : Instr) (hsound : ∀ x, i = .ldStV x → sound = id)
    (hcall : ∀ nnn, i = .call nnn → entries = id) (hret : i = .ret → entries = id)
    (hkeys : ∀ x, i = .skp x ∨ i = .sknp x ∨ i = .ldVK x → sample = id) :
    exec i (s.mapHidden sound entries sample) = mapNext (·.mapHidden sound entries sample) (exec i s) := by
  cases i with
  | ldStV x => obtain rfl := hsound x rfl; rfl
  | call nnn => obtain rfl := hcall nnn rfl; exact mapNext_ite rfl rfl
  | ret => obtain rfl := hret rfl; exact mapNext_ite rfl rfl
  | skp x => obtain rfl := hkeys x (by simp); exact skpWith_mapHidden sound entries Config.params x s
  | sknp x => obtain rfl := hkeys x (by simp); exact sknpWith_mapHidden sound entries Config.params x s
  | ldVK x => obtain rfl := hkeys x (by simp); rfl
  | drw _ _ _ | ldB _ | stRegs _ | ldRegs _ => exact mapNext_ite rfl rfl
  | _ => rfl

end

/-- Settles O24: every instruction but Fx18 commutes with a change of ST, and Fx18 overwrites it. -/
theorem noInstructionReadsSoundTimer : Obligations.NoInstructionReadsSoundTimer := by
  intro i s t v h
  constructor
  · intro hi
    have hcomm := exec_mapHidden (fun _ => v) id id s i (fun x e => absurd e (hi x)) (fun _ _ => rfl) (fun _ => rfl)
      (fun _ _ => rfl)
    rw [h, mapNext_next] at hcomm
    exact hcomm
  · rintro x rfl
    exact h

/-! ### The call stack -/

/-- The depth after a push, where the stack is not full. -/
theorem pushReturn_SP_val {s : State} (a : Word) (h : s.SP.val ≠ Config.stackDepth) :
    (s.pushReturn a).SP.val = s.SP.val + 1 := by
  have := s.SP.isLt
  simp only [Config.stackDepth] at h
  simp only [pushReturn_SP, Fin.val_ofNat]
  omega

theorem popReturn_SP_val (s : State) : s.popReturn.SP.val = s.SP.val - 1 := by
  have := s.SP.isLt
  simp only [popReturn_SP, Fin.val_ofNat]
  omega

/-- A push writes the entry at SP and no other. -/
theorem getElem_pushReturn_stack (s : State) (a : Word) (j : Fin 16) :
    (s.pushReturn a).stack[j] = if j.val = s.SP.val then a else s.stack[j] := by
  simp [Vector.getElem_setIfInBounds, eq_comm]

/-- The stack `entries` holds the live entries of `s`; the dead ones are any. -/
def SameLiveEntries (s : State) (entries : Vector Word 16) : Prop :=
  ∀ j : Fin 16, j.val < s.SP.val → entries[j] = s.stack[j]

theorem SameLiveEntries.stackTop {s : State} {entries : Vector Word 16} (h : SameLiveEntries s entries)
    (hpos : s.SP.val ≠ 0) : State.stackTop { s with stack := entries } = s.stackTop :=
  h ⟨s.SP.val - 1, by omega⟩ (by simp; omega)

theorem SameLiveEntries.pushReturn {s : State} {entries : Vector Word 16} (h : SameLiveEntries s entries) (a : Word)
    (hroom : s.SP.val ≠ Config.stackDepth) :
    SameLiveEntries (s.pushReturn a) (State.pushReturn { s with stack := entries } a).stack := by
  intro j hj
  rw [pushReturn_SP_val a hroom] at hj
  rw [getElem_pushReturn_stack, getElem_pushReturn_stack]
  by_cases htop : j.val = s.SP.val
  · rw [if_pos htop, if_pos htop]
  · rw [if_neg htop, if_neg htop]
    exact h j (by omega)

theorem SameLiveEntries.popReturn {s : State} {entries : Vector Word 16} (h : SameLiveEntries s entries) :
    SameLiveEntries s.popReturn entries := by
  intro j hj
  rw [popReturn_SP_val] at hj
  exact h j (by omega)

/-- Only CALL and RET write the stack (10_state.md rule R18). -/
theorem stack_notMem_partsWritten {i : Instr} (hcall : ∀ nnn, i ≠ .call nnn) (hret : i ≠ .ret) :
    Part.stack ∉ partsWritten i := by
  cases i with
  | call nnn => exact absurd rfl (hcall nnn)
  | ret => exact absurd rfl hret
  | _ => simp [partsWritten]

theorem exec_call_full {s : State} (nnn : Addr12) (h : s.SP.val = Config.stackDepth) :
    exec (.call nnn) s = .next (haltedWith .stackOverflow (some (encode (.call nnn))) (.depth s.SP.val) s) :=
  if_pos h

theorem exec_call_room {s : State} (nnn : Addr12) (h : s.SP.val ≠ Config.stackDepth) :
    exec (.call nnn) s = .next ((s.pushReturn s.pc).setPc (zext16 nnn)) :=
  if_neg h

theorem exec_ret_empty {s : State} (h : s.SP.val = 0) :
    exec .ret s = .next (haltedWith .stackUnderflow (some (encode .ret)) (.depth s.SP.val) s) :=
  if_pos h

theorem exec_ret_live {s : State} (h : s.SP.val ≠ 0) :
    exec .ret s = .next (s.popReturn.setPc (trunc16 (s.stackTop.toNat + 2))) :=
  if_neg h

section
variable {s t : State} {entries : Vector Word 16}

theorem exec_call_sameLiveEntries {nnn : Addr12} (hlive : SameLiveEntries s entries)
    (h : exec (.call nnn) s = .next t) :
    ∃ entries', exec (.call nnn) { s with stack := entries } = .next { t with stack := entries' } ∧
      SameLiveEntries t entries' := by
  by_cases hfull : s.SP.val = Config.stackDepth
  · rw [exec_call_full nnn hfull] at h
    cases h
    exact ⟨entries, exec_call_full nnn hfull, hlive⟩
  · rw [exec_call_room nnn hfull] at h
    cases h
    exact ⟨_, exec_call_room nnn hfull, hlive.pushReturn s.pc hfull⟩

theorem exec_ret_sameLiveEntries (hlive : SameLiveEntries s entries) (h : exec .ret s = .next t) :
    ∃ entries', exec .ret { s with stack := entries } = .next { t with stack := entries' } ∧
      SameLiveEntries t entries' := by
  by_cases hempty : s.SP.val = 0
  · rw [exec_ret_empty hempty] at h
    cases h
    exact ⟨entries, exec_ret_empty hempty, hlive⟩
  · rw [exec_ret_live hempty] at h
    cases h
    have hexec := exec_ret_live (s := { s with stack := entries }) hempty
    rw [hlive.stackTop hempty] at hexec
    exact ⟨entries, hexec, hlive.popReturn⟩

/-- An instruction that is neither CALL nor RET carries the stack through. -/
theorem exec_other_sameLiveEntries {i : Instr} (hcall : ∀ nnn, i ≠ .call nnn) (hret : i ≠ .ret)
    (hlive : SameLiveEntries s entries) (h : exec i s = .next t) :
    exec i { s with stack := entries } = .next { t with stack := entries } ∧ SameLiveEntries t entries := by
  constructor
  · have hcomm := exec_mapHidden id (fun _ => entries) id s i (fun _ _ => rfl) (fun nnn e => absurd e (hcall nnn))
      (fun e => absurd e hret) (fun _ _ => rfl)
    rw [h, mapNext_next] at hcomm
    exact hcomm
  · obtain ⟨hSP, hstack⟩ := (exec_endsInFrame i s t h).2 .stack (stack_notMem_partsWritten hcall hret)
    unfold SameLiveEntries
    rw [hSP, hstack]
    exact hlive

end

/-- Settles O25: CALL overwrites a dead entry with pc, RET reads a live one, and no other instruction reads or writes
the stack. -/
theorem deadStackEntriesAreUnobservable : Obligations.DeadStackEntriesAreUnobservable := by
  intro i s t entries hlive h
  by_cases hcall : ∃ nnn, i = .call nnn
  · obtain ⟨nnn, rfl⟩ := hcall
    exact exec_call_sameLiveEntries hlive h
  · by_cases hret : i = .ret
    · subst hret
      exact exec_ret_sameLiveEntries hlive h
    · exact ⟨entries, exec_other_sameLiveEntries (fun nnn e => hcall ⟨nnn, e⟩) hret hlive h⟩

/-! ### The invariant at reset -/

/-- Settles O18: at reset no entry is live and the core is Running, so only the clauses on memory and pc say
anything. -/
theorem invariantHoldsAtReset : Obligations.InvariantHoldsAtReset where
  mem_wf     := rfl
  pc_le      := by decide
  stack_live := fun j hj => absurd hj (Nat.not_lt_zero j)
  waiting_pc := nofun
  halted_pc  := nofun

end Sys2Proof.Machine
end

section
/-! SUPPORT. The decoder on encoded words and on bytes (30_encoding.md rules R39 and R44, 20_memory.md rule R29). -/

namespace Sys2Proof

/-! ### A word is decoded to the instruction it encodes -/

/-- Different addresses make different words of group 0. -/
theorem wordNNN_zero_ne {nnn a : Addr12} (h : nnn ≠ a) : wordNNN 0 nnn.toNat ≠ wordNNN 0 a.toNat := by
  intro e
  apply h
  rw [← fieldNNN_wordNNN (g := 0) nnn (by omega), e, fieldNNN_wordNNN a (by omega)]

/-- Group 0 is SYS but for the words of CLS and RET, "decoded first" (rule R44). -/
theorem decodeGroup0_wordNNN {nnn : Addr12} (h : sysFieldOk nnn = true) :
    decodeGroup0 (wordNNN 0 nnn.toNat) = .ok (.sys nnn) := by
  simp only [sysFieldOk, Bool.and_eq_true, bne_iff_ne] at h
  have hcls : wordNNN 0 nnn.toNat ≠ 0x00E0 := wordNNN_zero_ne h.1
  have hret : wordNNN 0 nnn.toNat ≠ 0x00EE := wordNNN_zero_ne h.2
  rw [decodeGroup0, if_neg hcls, if_neg hret, fieldNNN_wordNNN nnn (by omega)]

/-- The group of an encoded word selects its line of the decoder, and the fields are the operands. -/
theorem decodeWord_encode {i : Instr} (h : i.wf = true) : decodeWord (encode i) = .ok i := by
  cases i with
  | cls | ret => rfl
  | sys nnn => simp [encode, decodeWord, decodeGroup0_wordNNN h]
  | jp _ | call _ | ldI _ | jpV0 _ => simp [encode, decodeWord]
  | seImm _ _ | sneImm _ _ | ldImm _ _ | addImm _ _ | rnd _ _ => simp [encode, decodeWord]
  | seReg _ _ | sneReg _ _ => simp [encode, decodeWord, Fin.ext_iff]
  | drw _ _ _ => simp [encode, decodeWord]
  | ldReg _ _ | orReg _ _ | andReg _ _ | xorReg _ _ | addReg _ _ | sub _ _ | shr _ _ | subn _ _ | shl _ _ =>
    simp [encode, decodeWord, decodeGroup8]
  | skp _ | sknp _ => simp [encode, decodeWord, decodeGroupE]
  | ldVDt _ | ldVK _ | ldDtV _ | ldStV _ | addI _ | ldF _ | ldB _ | stRegs _ | ldRegs _ =>
    simp [encode, decodeWord, decodeGroupF]

/-! ### The decoder on bytes -/

theorem wordOfBytes_eq_ofNat (hi lo : Byte) : wordOfBytes hi lo = BitVec.ofNat 16 (hi.toNat * 256 + lo.toNat) := by
  apply BitVec.eq_of_toNat_eq
  have := hi.isLt
  have := lo.isLt
  rw [wordOfBytes_toNat, BitVec.toNat_ofNat, Nat.mod_eq_of_lt (by omega)]

/-- The byte decoder decodes the word of the first two bytes and leaves the rest. -/
theorem decode_cons_cons_eq_ok_iff (hi lo : Byte) (rest : List Byte) (i : Instr) :
    decode (hi :: lo :: rest) = .ok (i, rest) ↔ decodeWord (wordOfBytes hi lo) = .ok i := by
  rw [decode]
  cases decodeWord (wordOfBytes hi lo) <;> simp

theorem decode_encode_append {i : Instr} (h : i.wf = true) (rest : List Byte) :
    decode (bytesOfWord (encode i) ++ rest) = .ok (i, rest) := by
  have hword : decodeWord (wordOfBytes (highByte (encode i)) (lowByte (encode i))) = .ok i := by
    rw [wordOfBytes_bytesOfWord, decodeWord_encode h]
  exact (decode_cons_cons_eq_ok_iff _ _ rest i).mpr hword

theorem decode_of_length_lt_two {bs : List Byte} (h : bs.length < 2) : decode bs = .error .truncated := by
  match bs with
  | [] | [_] => rfl
  | _ :: _ :: _ => simp at h

/-- Settles O2: the byte decoder is the word decoder on the word of the first two bytes, and decoding gives an encoded
instruction back. -/
theorem bytesDecodeHighByteFirst : Obligations.BytesDecodeHighByteFirst := by
  refine ⟨fun hi lo rest i => ?_, fun _ rest h => decode_encode_append h rest, fun _ h => decode_of_length_lt_two h⟩
  rw [← wordOfBytes_eq_ofNat]
  exact decode_cons_cons_eq_ok_iff hi lo rest i

end Sys2Proof
end

section
/-! SUPPORT. Memory: the canonical form lists each memory once, every instruction keeps it, and what Fx55 stores is
fetched (20_memory.md rules R27 and R37); and which instructions read the key sample (rule R28). -/

namespace Sys2Proof.Machine

/-! ### The canonical form -/

theorem wfFrom_cons {lo a : Nat} {v : Byte} {m : Memory} : Memory.wfFrom lo ((a, v) :: m) = true ↔
    lo ≤ a ∧ a < Config.memSize ∧ v ≠ initByte a ∧ Memory.wfFrom (a + 1) m = true := by
  simp [Memory.wfFrom, and_assoc]

@[simp] theorem memRead_cons_same (a : Nat) (v : Byte) (m : Memory) : memRead ((a, v) :: m) a = v := by
  simp [memRead]

theorem memRead_cons_other {a b : Nat} (v : Byte) (m : Memory) (h : b ≠ a) : memRead ((a, v) :: m) b = memRead m b := by
  simp [memRead, h]

/-- A canonical memory reads as unlisted below its first listed address, and as something else there: one that reads
like it at that address lists a byte no later. -/
theorem head_le_of_memRead_eq {lo lo' a b : Nat} {v w : Byte} {m m' : Memory}
    (h : Memory.wfFrom lo ((a, v) :: m) = true) (h' : Memory.wfFrom lo' ((b, w) :: m') = true)
    (hread : memRead ((a, v) :: m) a = memRead ((b, w) :: m') a) : b ≤ a := by
  obtain ⟨-, -, hv, -⟩ := wfFrom_cons.mp h
  obtain ⟨-, hb, hw, hm'⟩ := wfFrom_cons.mp h'
  have hfrom : Memory.wfFrom b ((b, w) :: m') = true := wfFrom_cons.mpr ⟨Nat.le_refl b, hb, hw, hm'⟩
  by_contra hlt
  rw [memRead_cons_same, memRead_of_wfFrom hfrom (by omega)] at hread
  exact hv hread

/-- The bytes after a first listed byte read alike where the whole memories do: up to that address both tails read as
unlisted. -/
theorem memRead_tail_eq {a : Nat} {v w : Byte} {m m' : Memory} (h : Memory.wfFrom (a + 1) m = true)
    (h' : Memory.wfFrom (a + 1) m' = true) {c : Nat}
    (hread : memRead ((a, v) :: m) c = memRead ((a, w) :: m') c) : memRead m c = memRead m' c := by
  by_cases hc : c = a
  · rw [memRead_of_wfFrom h (by omega), memRead_of_wfFrom h' (by omega)]
  · rwa [memRead_cons_other v m hc, memRead_cons_other w m' hc] at hread

/-- The list is read off the memory from its lowest address on. -/
theorem eq_of_wfFrom_of_memRead_eq {lo : Nat} {m m' : Memory} (h : Memory.wfFrom lo m = true)
    (h' : Memory.wfFrom lo m' = true) (hread : ∀ a, a < Config.memSize → memRead m a = memRead m' a) : m = m' := by
  induction m generalizing lo m' with
  | nil =>
    cases m' with
    | nil => rfl
    | cons c m' =>
      obtain ⟨-, hc, hw, -⟩ := wfFrom_cons.mp h'
      have := hread c.1 hc
      rw [memRead_cons_same] at this
      exact absurd this.symm hw
  | cons c m ih =>
    obtain ⟨a, v⟩ := c
    obtain ⟨-, ha, hv, hm⟩ := wfFrom_cons.mp h
    cases m' with
    | nil =>
      have := hread a ha
      rw [memRead_cons_same] at this
      exact absurd this hv
    | cons d m' =>
      obtain ⟨b, w⟩ := d
      obtain ⟨-, hb, -, hm'⟩ := wfFrom_cons.mp h'
      have hab : a = b :=
        Nat.le_antisymm (head_le_of_memRead_eq h' h (hread b hb).symm) (head_le_of_memRead_eq h h' (hread a ha))
      subst hab
      have hvw : v = w := by simpa using hread a ha
      rw [hvw, ih hm hm' fun c hc => memRead_tail_eq hm hm' (hread c hc)]

/-- Settles O17: by induction on the two lists, whose first addresses must be the same. -/
theorem memoryFormIsCanonical : Obligations.MemoryFormIsCanonical :=
  fun _ _ h h' hread => eq_of_wfFrom_of_memRead_eq h h' hread

/-! ### What an instruction does to memory -/

/-- Every next state an outcome can be satisfies `P`. -/
def EndsIn (P : State → Prop) (o : Host.Outcome State Fault Refusal) : Prop := ∀ t, o = .next t → P t

section
variable {P : State → Prop} {s t : State}

theorem EndsIn.next (h : P t) : EndsIn P (.next t) := by
  rintro _ ⟨⟩
  exact h

theorem EndsIn.ite {c : Prop} [Decidable c] {a b : Host.Outcome State Fault Refusal} (ha : c → EndsIn P a)
    (hb : ¬ c → EndsIn P b) : EndsIn P (if c then a else b) := by
  split
  · exact ha ‹_›
  · exact hb ‹_›

/-- SKP ends in a fault or in a skip. -/
theorem EndsIn.skpWith {p : Params} {x : Reg} (hmode : ∀ m, P (s.setMode m)) (hpc : ∀ k, P (s.advance k)) :
    EndsIn P (skpWith p x s) := by
  unfold Machine.skpWith
  split
  · exact .next (hmode _)
  · exact .next (hpc _)

/-- SKNP ends in a fault or in a skip. -/
theorem EndsIn.sknpWith {p : Params} {x : Reg} (hmode : ∀ m, P (s.setMode m)) (hpc : ∀ k, P (s.advance k)) :
    EndsIn P (sknpWith p x s) := by
  unfold Machine.sknpWith
  split
  · exact .next (hmode _)
  · exact .next (hpc _)

end

/-- Memory is as it was, or a block of bytes inside the address space has been written at I. -/
def MemoryKeptOrWrittenAtI (s t : State) : Prop :=
  t.mem = s.mem ∨
    ∃ vs : List Byte, s.I.toNat + vs.length ≤ Config.memSize ∧ t.mem = memWriteBlock s.mem s.I.toNat vs

/-- Fx33 and Fx55 write a block at I, where the range check admits it; no other instruction writes memory. -/
theorem exec_memoryKeptOrWrittenAtI (i : Instr) (s : State) : EndsIn (MemoryKeptOrWrittenAtI s) (exec i s) := by
  cases i with
  | ldB x => exact .ite (fun h => .next (.inr ⟨bcdDigits (s.getV x), inRange_iff.mp h, rfl⟩)) fun _ => .next (.inl rfl)
  | stRegs x =>
    have hblock (h : inRange s.I (x.val + 1) = true) : s.I.toNat + (blockRegs s x).length ≤ Config.memSize := by
      rw [length_blockRegs]
      exact inRange_iff.mp h
    exact .ite (fun h => .next (.inr ⟨blockRegs s x, hblock h, rfl⟩)) fun _ => .next (.inl rfl)
  | ret | call _ | drw _ _ _ | ldRegs _ => exact .ite (fun _ => .next (.inl rfl)) fun _ => .next (.inl rfl)
  | skp _ => exact .skpWith (fun _ => .inl rfl) fun _ => .inl rfl
  | sknp _ => exact .sknpWith (fun _ => .inl rfl) fun _ => .inl rfl
  | _ => exact .next (.inl rfl)

theorem MemoryKeptOrWrittenAtI.wf {s t : State} (h : MemoryKeptOrWrittenAtI s t) (hs : Memory.wf s.mem = true) :
    Memory.wf t.mem = true := by
  obtain hkept | ⟨vs, hrange, hwritten⟩ := h
  · rw [hkept]
    exact hs
  · rw [hwritten]
    exact wf_memWriteBlock hs vs hrange

/-- Settles O60: a block write inside the address space keeps the form, and an instruction does no other write. -/
theorem instructionsKeepMemoryCanonical : Obligations.InstructionsKeepMemoryCanonical :=
  fun i s t hs h => (exec_memoryKeptOrWrittenAtI i s t h).wf hs

/-! ### The key sample -/

/-- Settles O23: every instruction but the keypad's commutes with a change of the key sample. -/
theorem onlyKeypadInstructionsReadKeys : Obligations.OnlyKeypadInstructionsReadKeys := by
  intro i s t k hi h
  have hkeypad (x : Reg) : ¬(i = .skp x ∨ i = .sknp x ∨ i = .ldVK x) := by
    obtain ⟨hskp, hsknp, hldVK⟩ := hi x
    simp [hskp, hsknp, hldVK]
  have hcomm := exec_mapHidden id id (fun _ => k) s i (fun _ _ => rfl) (fun _ _ => rfl) (fun _ => rfl)
    (fun x e => absurd e (hkeypad x))
  rw [h, mapNext_next] at hcomm
  exact hcomm

/-! ### Storing the next instruction -/

/-- What Fx55 leaves (48_memory_block.md rule R100): V0 to Vx stored from I on, and pc advanced. -/
def State.storedRegs (s : State) (x : Reg) : State :=
  (s.setMem (memWriteBlock s.mem s.I.toNat (blockRegs s x))).advance 2

theorem exec_stRegs_inRange {s : State} {x : Reg} (h : s.I.toNat + x.val < Config.memSize) :
    exec (.stRegs x) s = .next (s.storedRegs x) :=
  if_pos (inRange_iff.mpr (by omega))

@[simp] theorem storedRegs_pc (s : State) (x : Reg) : (s.storedRegs x).pc = BitVec.ofNat 16 (s.pc.toNat + 2) := rfl

/-- Register `k` is stored at I + k. -/
theorem readByte_storedRegs {s : State} {x k : Reg} (hwf : Memory.wf s.mem = true)
    (hrange : s.I.toNat + x.val < Config.memSize) (hk : k ≤ x) :
    (s.storedRegs x).readByte (s.I.toNat + k.val) = s.getV k := by
  have hlen := length_blockRegs s x
  have hin : s.I.toNat ≤ s.I.toNat + k.val ∧ s.I.toNat + k.val < s.I.toNat + (blockRegs s x).length := by
    rw [Fin.le_def] at hk
    omega
  rw [State.storedRegs, readByte_advance, readByte_setMem, memRead_memWriteBlock hwf _ (by omega), if_pos hin,
    Nat.add_sub_cancel_left, getD_blockRegs s x k hk]

/-- Where registers `k` and `k + 1` are stored at pc, they are the word fetched there, the first the high byte. -/
theorem fetchWord_storedRegs {s : State} {x k : Reg} (hwf : Memory.wf s.mem = true)
    (hrange : s.I.toNat + x.val < Config.memSize) (hk : k < x)
    (hpc : (s.storedRegs x).pc.toNat = s.I.toNat + k.val) :
    fetchWord (s.storedRegs x) = wordOfBytes (s.getV k) (s.getV (k + 1)) := by
  have hnext : (k + 1).val = k.val + 1 := Fin.val_add_one_of_lt (hk.trans_le (Fin.le_last x))
  have hlo := readByte_storedRegs hwf hrange (Fin.add_one_le_of_lt hk)
  rw [hnext, ← Nat.add_assoc] at hlo
  rw [fetchWord, hpc, readByte_storedRegs hwf hrange hk.le, hlo]

/-- A core step in Running mode at a word that decodes is that instruction. -/
theorem CycleStart.step_eq_exec {s u : State} {i : Instr} (h : CycleStart s u) (hm : s.mode = .running)
    (hpc : s.pc.toNat + 1 < Config.memSize) (hd : decodeWord (fetchWord s) = .ok i) : step s = exec i u := by
  rw [h.running hm]
  obtain ⟨_, _, _, _, rfl⟩ := h.eq
  exact instructionStep_of_decode hpc hd

/-- Settles O58: Fx55 leaves the two registers at the bytes the next fetch reads. -/
theorem storedWordIsFetchedNext : Obligations.StoredWordIsFetchedNext := by
  intro s x k i hwf hm hrange hk hpc hd
  have hlt : k.val < x.val := hk
  have hnext : (s.storedRegs x).pc.toNat = s.I.toNat + k.val := by
    rw [storedRegs_pc, BitVec.toNat_ofNat, hpc]
    omega
  have hdecode : decodeWord (fetchWord (s.storedRegs x)) = .ok i := by
    rw [fetchWord_storedRegs hwf hrange hk hnext, wordOfBytes_eq_ofNat]
    exact hd
  have hroom : (s.storedRegs x).pc.toNat + 1 < Config.memSize := by
    rw [hnext, Config.memSize]
    omega
  exact ⟨s.storedRegs x, exec_stRegs_inRange hrange, fun u hu => hu.step_eq_exec hm hroom hdecode⟩

end Sys2Proof.Machine
end

section
/-! SUPPORT. The decoder on every word: what a decoded instruction encodes to, the rows of the opcode table, and the
illegal words (30_encoding.md rules R40 and R43 to R45). -/

namespace Sys2Proof

/-! ### A decoded word is the word of its instruction -/

section
variable {w : Word} {g : Nat}

/-- The group and the address are all the bits of a word. -/
theorem wordNNN_of_fields (hg : (fieldGroup w).toNat = g) : wordNNN g (fieldNNN w).toNat = w := by
  have := w.isLt
  rw [fieldGroup_toNat] at hg
  apply BitVec.eq_of_toNat_eq
  rw [wordNNN_toNat (by omega) (addr12_lt _), fieldNNN_toNat]
  omega

/-- The group, the register and the low byte are all the bits of a word. -/
theorem wordXKK_of_fields {kk : Nat} (hg : (fieldGroup w).toNat = g) (hk : (fieldKK w).toNat = kk) :
    wordXKK g (fieldX w) kk = w := by
  have := w.isLt
  rw [fieldGroup_toNat] at hg
  rw [fieldKK_toNat] at hk
  apply BitVec.eq_of_toNat_eq
  rw [wordXKK_toNat _ (by omega) (by omega), fieldX_val]
  omega

/-- The group, the two registers and the low nibble are all the bits of a word. -/
theorem wordXYN_of_fields {n : Nat} (hg : (fieldGroup w).toNat = g) (hn : (fieldN w).val = n) :
    wordXYN g (fieldX w) (fieldY w) n = w := by
  have := w.isLt
  rw [fieldGroup_toNat] at hg
  rw [fieldN_val] at hn
  apply BitVec.eq_of_toNat_eq
  rw [wordXYN_toNat _ _ (by omega) (by omega), fieldX_val, fieldY_val]
  omega

end

/-- `i` is the well-formed instruction that the word `w` encodes. -/
def Encodes (i : Instr) (w : Word) : Prop := i.wf = true ∧ encode i = w

section
variable {w : Word} {i : Instr}

theorem encodes_of_decodeGroup0 (hg : (fieldGroup w).toNat = 0x0) (h : decodeGroup0 w = .ok i) : Encodes i w := by
  unfold decodeGroup0 at h
  split at h
  case isTrue hcls => cases h; exact ⟨rfl, hcls.symm⟩
  case isFalse hcls =>
    split at h
    case isTrue hret => cases h; exact ⟨rfl, hret.symm⟩
    case isFalse hret =>
      cases h
      have hword : wordNNN 0x0 (fieldNNN w).toNat = w := wordNNN_of_fields hg
      have hne : ∀ a : Addr12, w ≠ wordNNN 0x0 a.toNat → fieldNNN w ≠ a := by
        rintro a hwa rfl
        exact hwa hword.symm
      refine ⟨?_, hword⟩
      simp only [Instr.wf, sysFieldOk, Bool.and_eq_true, bne_iff_ne]
      exact ⟨hne _ hcls, hne _ hret⟩

theorem encodes_of_decodeGroup8 (hg : (fieldGroup w).toNat = 0x8) (h : decodeGroup8 w = .ok i) : Encodes i w := by
  unfold decodeGroup8 at h
  split at h <;> cases h
  all_goals exact ⟨rfl, wordXYN_of_fields hg ‹_›⟩

theorem encodes_of_decodeGroupE (hg : (fieldGroup w).toNat = 0xE) (h : decodeGroupE w = .ok i) : Encodes i w := by
  unfold decodeGroupE at h
  split at h <;> cases h
  all_goals exact ⟨rfl, wordXKK_of_fields hg ‹_›⟩

theorem encodes_of_decodeGroupF (hg : (fieldGroup w).toNat = 0xF) (h : decodeGroupF w = .ok i) : Encodes i w := by
  unfold decodeGroupF at h
  split at h <;> cases h
  all_goals exact ⟨rfl, wordXKK_of_fields hg ‹_›⟩

/-- The decoder drops no bit of a word: each line reads every field its instruction encodes. (The cases
count the decoder's lines from 1: `h_9` is the line of group 8.) -/
theorem encodes_of_decodeWord (h : decodeWord w = .ok i) : Encodes i w := by
  unfold decodeWord at h
  split at h
  case h_1 hg => exact encodes_of_decodeGroup0 hg h
  case h_2 hg | h_3 hg | h_11 hg | h_12 hg => cases h; exact ⟨rfl, wordNNN_of_fields hg⟩
  case h_4 hg | h_5 hg | h_7 hg | h_8 hg | h_13 hg => cases h; exact ⟨rfl, wordXKK_of_fields hg rfl⟩
  case h_6 hg | h_10 hg =>
    split at h <;> cases h
    exact ⟨rfl, wordXYN_of_fields hg (congrArg Fin.val ‹_›)⟩
  case h_9 hg => exact encodes_of_decodeGroup8 hg h
  case h_14 hg => cases h; exact ⟨rfl, wordXYN_of_fields hg rfl⟩
  case h_15 hg => exact encodes_of_decodeGroupE hg h
  case h_16 =>
    have := (fieldGroup w).isLt
    simp only [imp_false] at *
    exact encodes_of_decodeGroupF (by omega) h

end

/-- Settles O1: `decodeWord_encode` for one direction, and no field dropped for the other. -/
theorem decodeAndEncodeAgree : Obligations.DecodeAndEncodeAgree := by
  refine fun w i => ⟨encodes_of_decodeWord, ?_⟩
  rintro ⟨hwf, rfl⟩
  exact decodeWord_encode hwf

/-! ### The rows of the opcode table -/

/-- The row of a well-formed instruction takes its word (rule R43). -/
theorem rowOf_accepts_encode {i : Instr} (h : i.wf = true) : (rowOf i).accepts (encode i) = true := by
  cases i with
  | cls | ret => decide
  | sys nnn => exact Laws.EncodedWordMatchesItsRow.sys nnn h
  | jp nnn | call nnn | ldI nnn | jpV0 nnn => exact Laws.EncodedWordMatchesItsRow.of_nnn nnn (by omega) rfl
  | seImm x kk | sneImm x kk | ldImm x kk | addImm x kk | rnd x kk =>
    exact Laws.EncodedWordMatchesItsRow.of_xkk x kk (by omega) rfl
  | drw x y n => exact Laws.EncodedWordMatchesItsRow.of_xyn x y n (by omega) rfl
  | seReg x y | ldReg x y | orReg x y | andReg x y | xorReg x y | addReg x y | sub x y | shr x y | subn x y | shl x y
  | sneReg x y => exact Laws.EncodedWordMatchesItsRow.of_xy x y (by omega) (by omega) rfl
  | skp x | sknp x | ldVDt x | ldVK x | ldDtV x | ldStV x | addI x | ldF x | ldB x | stRegs x | ldRegs x =>
    exact Laws.EncodedWordMatchesItsRow.of_x x (by omega) (by omega) rfl

/-- A row of the table is the row of an instruction. -/
theorem exists_rowOf_of_mem {r : OpRow} (h : r ∈ opcodeRows) : ∃ i, rowOf i = r := by
  simp only [opcodeRows, List.mem_append, List.mem_map] at h
  rcases h with ((⟨i, -, hi⟩ | ⟨i, -, hi⟩) | ⟨i, -, hi⟩) | ⟨i, -, hi⟩ <;> exact ⟨i, hi⟩

section
variable {w p : Word}

/-- A match under the mask F000 gives the group. -/
theorem fieldGroup_of_and_F000 (h : w &&& 0xF000#16 = p) : (fieldGroup w).toNat = p.toNat / 4096 := by
  rw [fieldGroup_toNat, ← h, and_F000]
  omega

/-- A match under the mask F00F gives the group and the low nibble. -/
theorem fields_of_and_F00F (h : w &&& 0xF00F#16 = p) :
    (fieldGroup w).toNat = p.toNat / 4096 ∧ (fieldN w).val = p.toNat % 16 := by
  rw [fieldGroup_toNat, fieldN_val, ← h, and_F00F]
  omega

/-- A match under the mask F0FF gives the group and the low byte. -/
theorem fields_of_and_F0FF (h : w &&& 0xF0FF#16 = p) :
    (fieldGroup w).toNat = p.toNat / 4096 ∧ (fieldKK w).toNat = p.toNat % 256 := by
  rw [fieldGroup_toNat, fieldKK_toNat, ← h, and_F0FF]
  omega

end

/-- A word that a row takes is decoded to an instruction of the row: its mask covers the fields the decoder selects
by. -/
theorem exists_decodeWord_of_accepts {i : Instr} {w : Word} (h : (rowOf i).accepts w = true) :
    ∃ j, decodeWord w = .ok j ∧ rowOf j = rowOf i := by
  obtain ⟨hmatch, hexcl⟩ := (accepts_iff _ _).mp h
  cases i with
  | cls | ret =>
    obtain rfl := (and_FFFF w).symm.trans hmatch
    exact ⟨_, rfl, rfl⟩
  | sys _ =>
    obtain ⟨hcls, hret⟩ : w ≠ 0x00E0 ∧ w ≠ 0x00EE := by simpa [rowOf] using hexcl
    have hsys : decodeGroup0 w = .ok (.sys (fieldNNN w)) := by rw [decodeGroup0, if_neg hcls, if_neg hret]
    simp [decodeWord, fieldGroup_of_and_F000 hmatch, hsys, rowOf]
  | jp _ | call _ | seImm _ _ | sneImm _ _ | ldImm _ _ | addImm _ _ | ldI _ | jpV0 _ | rnd _ _ | drw _ _ _ =>
    simp [decodeWord, fieldGroup_of_and_F000 hmatch, rowOf]
  | seReg _ _ | sneReg _ _ =>
    obtain ⟨hg, hn⟩ := fields_of_and_F00F hmatch
    have hzero : fieldN w = 0 := by simpa [rowOf] using hn
    simp [decodeWord, hg, hzero, rowOf]
  | ldReg _ _ | orReg _ _ | andReg _ _ | xorReg _ _ | addReg _ _ | sub _ _ | shr _ _ | subn _ _ | shl _ _ =>
    obtain ⟨hg, hn⟩ := fields_of_and_F00F hmatch
    simp [decodeWord, decodeGroup8, hg, hn, rowOf]
  | skp _ | sknp _ =>
    obtain ⟨hg, hk⟩ := fields_of_and_F0FF hmatch
    simp [decodeWord, decodeGroupE, hg, hk, rowOf]
  | ldVDt _ | ldVK _ | ldDtV _ | ldStV _ | addI _ | ldF _ | ldB _ | stRegs _ | ldRegs _ =>
    obtain ⟨hg, hk⟩ := fields_of_and_F0FF hmatch
    simp [decodeWord, decodeGroupF, hg, hk, rowOf]

/-- The decoder follows the table (rules R43 and R44). -/
theorem accepts_iff_exists_decodeWord {r : OpRow} (hr : r ∈ opcodeRows) (w : Word) :
    r.accepts w = true ↔ ∃ i, decodeWord w = .ok i ∧ rowOf i = r := by
  constructor
  · intro h
    obtain ⟨i, rfl⟩ := exists_rowOf_of_mem hr
    exact exists_decodeWord_of_accepts h
  · rintro ⟨i, hd, rfl⟩
    obtain ⟨hwf, rfl⟩ := encodes_of_decodeWord hd
    exact rowOf_accepts_encode hwf

/-- Settles O3: a row takes the words decoded to its instructions, so two rows that take one word are the row of the
one instruction it is decoded to. -/
theorem decoderMatchesOpcodeTable : Obligations.DecoderMatchesOpcodeTable := by
  refine ⟨rfl, fun r hr w => ?_, fun r hr r' hr' w h h' => ?_⟩
  · rw [← accepts_iff, accepts_iff_exists_decodeWord hr]
  · obtain ⟨i, hi, rfl⟩ := (accepts_iff_exists_decodeWord hr w).mp h
    obtain ⟨i', hi', rfl⟩ := (accepts_iff_exists_decodeWord hr' w).mp h'
    rw [hi] at hi'
    cases hi'
    rfl

/-! ### The illegal words -/

/-- Group 0 has no illegal word. -/
theorem decodeGroup0_ne_error (w : Word) (e : Reject) : decodeGroup0 w ≠ .error e := by
  unfold decodeGroup0
  split
  · simp
  · split <;> simp

theorem decodeGroup8_error_iff (w : Word) :
    (∃ e, decodeGroup8 w = .error e) ↔ w.toNat % 16 ∈ [8, 9, 0xA, 0xB, 0xC, 0xD, 0xF] := by
  have hlt : w.toNat % 16 < 16 := Nat.mod_lt _ (by decide)
  simp only [decodeGroup8, fieldN_val]
  split
  case h_10 =>
    simp only [imp_false] at *
    refine iff_of_true ⟨_, rfl⟩ ?_
    simp only [List.mem_cons, List.not_mem_nil, or_false]
    omega
  all_goals simp [*]

theorem decodeGroupE_error_iff (w : Word) :
    (∃ e, decodeGroupE w = .error e) ↔ w.toNat % 256 ∉ [0x9E, 0xA1] := by
  simp only [decodeGroupE, fieldKK_toNat]
  split <;> simp_all

theorem decodeGroupF_error_iff (w : Word) : (∃ e, decodeGroupF w = .error e) ↔
    w.toNat % 256 ∉ [0x07, 0x0A, 0x15, 0x18, 0x1E, 0x29, 0x33, 0x55, 0x65] := by
  simp only [decodeGroupF, fieldKK_toNat]
  split <;> simp_all

/-- The five classes of illegal words (rule R45). -/
def IllegalWord (w : Word) : Prop :=
  (w.toNat / 4096 = 5 ∧ w.toNat % 16 ≠ 0) ∨
  (w.toNat / 4096 = 8 ∧ w.toNat % 16 ∈ [8, 9, 0xA, 0xB, 0xC, 0xD, 0xF]) ∨
  (w.toNat / 4096 = 9 ∧ w.toNat % 16 ≠ 0) ∨
  (w.toNat / 4096 = 0xE ∧ w.toNat % 256 ∉ [0x9E, 0xA1]) ∨
  (w.toNat / 4096 = 0xF ∧ w.toNat % 256 ∉ [0x07, 0x0A, 0x15, 0x18, 0x1E, 0x29, 0x33, 0x55, 0x65])

/-- Only the groups 5, 8, 9, E and F reject a word. -/
theorem decodeWord_error_iff (w : Word) : (∃ e, decodeWord w = .error e) ↔ IllegalWord w := by
  have hlt : w.toNat / 4096 < 16 := by have := w.isLt; omega
  simp only [decodeWord, fieldGroup_toNat, IllegalWord]
  split
  case h_1 hg => simp [hg, decodeGroup0_ne_error]
  case h_2 hg | h_3 hg | h_4 hg | h_5 hg | h_7 hg | h_8 hg | h_11 hg | h_12 hg | h_13 hg | h_14 hg => simp [hg]
  case h_6 hg | h_10 hg =>
    simp only [Fin.ext_iff, fieldN_val]
    split <;> simp_all
  case h_9 hg => simp [hg, decodeGroup8_error_iff]
  case h_15 hg => simp [hg, decodeGroupE_error_iff]
  case h_16 =>
    simp only [imp_false] at *
    have hg : w.toNat / 4096 = 0xF := by omega
    simp [hg, decodeGroupF_error_iff]

/-! ### The sample words -/

/-- Settles O5: seventeen words, by evaluation of the decoder. -/
theorem sampleWordsDecode : Obligations.SampleWordsDecode := by
  unfold Obligations.SampleWordsDecode
  decide

end Sys2Proof

namespace Sys2Proof.Machine

/-! ### A step that fetches an illegal word -/

/-- The fetched word in arithmetic: the byte at pc is the high one (20_memory.md rule R29). -/
theorem fetchWord_eq_iff {s : State} {w : Word} : fetchWord s = w ↔
    w.toNat = (s.readByte s.pc.toNat).toNat * 256 + (s.readByte (s.pc.toNat + 1)).toNat := by
  rw [← BitVec.toNat_inj, fetchWord, wordOfBytes_toNat, eq_comm]

theorem instructionStep_of_decode_error {s : State} {e : Reject} (hpc : s.pc.toNat + 1 < Config.memSize)
    (hd : decodeWord (fetchWord s) = .error e) :
    instructionStep s = .next (haltedWith .decodeError (some (fetchWord s)) .none s) := by
  have hrange : inRange s.pc 2 = true := inRange_iff.mpr (by omega)
  simp [instructionStep, hrange, hd, raiseFault_eq]

/-- A core step in Running mode at an illegal word halts with DecodeError (60_exceptions.md rule R102). -/
theorem CycleStart.step_eq_decodeError {s u : State} {e : Reject} (h : CycleStart s u) (hm : s.mode = .running)
    (hpc : s.pc.toNat + 1 < Config.memSize) (hd : decodeWord (fetchWord s) = .error e) :
    step s = .next (haltedWith .decodeError (some (fetchWord s)) .none u) := by
  rw [h.running hm]
  obtain ⟨_, _, _, _, rfl⟩ := h.eq
  exact instructionStep_of_decode_error hpc hd

/-- Settles O4: the illegal words line by line of the decoder, and the step that fetches one. -/
theorem illegalWordsRaiseDecodeError : Obligations.IllegalWordsRaiseDecodeError := by
  refine ⟨decodeWord_error_iff, fun s u w e hm hu hpc hw hd => ?_⟩
  obtain rfl := fetchWord_eq_iff.mpr hw
  exact hu.step_eq_decodeError hm hpc hd

end Sys2Proof.Machine
end

section
/-! SUPPORT. The instruction step (40_cycle_driver.md rules R51, R52, R54 and R59): what an instruction can do to pc
and mode, and what the core's own step is where the fetch is in range and where it is not. -/

namespace Sys2Proof.Machine

/-! ### What an instruction does to pc and mode -/

/-- From `s` the instruction has halted in `t` with a fault of its own. -/
def HaltsWithOwnFault (i : Instr) (s t : State) : Prop :=
  ∃ kind ∈ ownFaults i, ∃ detail, t = haltedWith kind (some (encode i)) detail s

/-- From `s` the instruction has ended in `t` by one of its pc actions, and has not halted the core. -/
def Completes (i : Instr) (s t : State) : Prop :=
  (∀ d, t.mode = .halted d → s.mode = .halted d) ∧ ∃ a ∈ pcActions i, PcAfter i s t a

/-- The two ways an instruction can end in a next state. -/
def HaltsOrCompletes (i : Instr) (s t : State) : Prop := HaltsWithOwnFault i s t ∨ Completes i s t

section
variable {i : Instr} {s t u : State}

theorem advanced_of_pc_eq {k : Nat} (h : t.pc = s.pc) : Advanced k s (t.advance k) := by
  rw [Advanced, advance_pc, BitVec.toNat_ofNat, h]

theorem EndsIn.ownFault {kind : FaultKind} {detail : Detail} (hk : kind ∈ ownFaults i) :
    EndsIn (HaltsOrCompletes i s) (raiseFault kind (some (encode i)) detail s) :=
  .next (.inl ⟨kind, hk, detail, rfl⟩)

theorem EndsIn.advance_two (ha : .next ∈ pcActions i) (hpc : u.pc = s.pc) (hm : u.mode = s.mode) :
    EndsIn (HaltsOrCompletes i s) (.next (u.advance 2)) :=
  .next (.inr ⟨fun _ hd => hm ▸ hd, .next, ha, advanced_of_pc_eq hpc⟩)

theorem EndsIn.skipIf {taken : Bool} (hnext : .next ∈ pcActions i) (hskip : .skip ∈ pcActions i) :
    EndsIn (HaltsOrCompletes i s) (skipIf taken s) := by
  cases taken with
  | false => exact .advance_two hnext rfl rfl
  | true => exact .next (.inr ⟨fun _ hd => hd, .skip, hskip, advanced_of_pc_eq rfl⟩)

theorem EndsIn.setPc_jumpTarget {a : Word} (ha : .retarget ∈ pcActions i) (hm : u.mode = s.mode)
    (htarget : a.toNat = jumpTarget s i) : EndsIn (HaltsOrCompletes i s) (.next (u.setPc a)) :=
  .next (.inr ⟨fun _ hd => hm ▸ hd, .retarget, ha, htarget⟩)

end

theorem zext16_toNat (nnn : Addr12) : (zext16 nnn).toNat = nnn.toNat :=
  BitVec.toNat_setWidth_of_le (by decide)

/-- The sum of Bnnn is below 2^16, so it is not truncated (41_control_flow.md rule R65). -/
theorem trunc16_addr_add_byte (nnn : Addr12) (v : Byte) :
    (trunc16 (nnn.toNat + v.toNat)).toNat = nnn.toNat + v.toNat := by
  have := nnn.isLt
  have := v.isLt
  rw [trunc16, BitVec.toNat_ofNat, Nat.mod_eq_of_lt (by omega)]

/-- Every instruction either halts the core by its own check, with its own word, or takes one of the pc actions of
rule R54 and does not halt. -/
theorem exec_haltsOrCompletes (i : Instr) (s : State) : EndsIn (HaltsOrCompletes i s) (exec i s) := by
  cases i with
  | sys _ => exact .ownFault (by simp [ownFaults])
  | jp nnn => exact .setPc_jumpTarget (by simp [pcActions]) rfl (zext16_toNat nnn)
  | jpV0 nnn => exact .setPc_jumpTarget (by simp [pcActions]) rfl (trunc16_addr_add_byte nnn _)
  | call nnn =>
    exact .ite (fun _ => .ownFault (by simp [ownFaults]))
      fun _ => .setPc_jumpTarget (by simp [pcActions]) rfl (zext16_toNat nnn)
  | ret =>
    exact .ite (fun _ => .ownFault (by simp [ownFaults]))
      fun _ => .setPc_jumpTarget (by simp [pcActions]) rfl (BitVec.toNat_ofNat _ 16)
  | seImm _ _ | sneImm _ _ | seReg _ _ | sneReg _ _ => exact .skipIf (by simp [pcActions]) (by simp [pcActions])
  | skp _ | sknp _ =>
    simp only [exec, execSkp, execSknp, skpWith, sknpWith]
    split
    · exact .ownFault (by simp [ownFaults])
    · exact .skipIf (by simp [pcActions]) (by simp [pcActions])
  | ldVK _ => exact .next (.inr ⟨nofun, .hold, by simp [pcActions], rfl⟩)
  | drw _ _ _ =>
    exact .ite (fun _ => .ownFault (by simp [ownFaults])) fun _ => .advance_two (by simp [pcActions]) rfl rfl
  | ldB _ | stRegs _ | ldRegs _ =>
    exact .ite (fun _ => .advance_two (by simp [pcActions]) rfl rfl) fun _ => .ownFault (by simp [ownFaults])
  | _ => exact .advance_two (by simp [pcActions]) rfl rfl

/-- A fault that an instruction halts a running core with is one its row of rule R102 names. -/
theorem kind_mem_ownFaults_of_exec {i : Instr} {s t : State} {d : Diag} (hm : s.mode = .running)
    (h : exec i s = .next t) (hd : t.mode = .halted d) : d.kind ∈ ownFaults i := by
  obtain ⟨kind, hkind, detail, rfl⟩ | ⟨hhalt, -⟩ := exec_haltsOrCompletes i s t h
  · rw [mode_haltedWith] at hd
    cases hd
    exact hkind
  · have hs := hhalt d hd
    rw [hm] at hs
    cases hs

theorem memoryRangeFetch_notMem_ownFaults (i : Instr) : .memoryRangeFetch ∉ ownFaults i := by
  cases i <;> simp [ownFaults]

/-- Settles O22: an instruction that has not halted the core has taken one of its pc actions. -/
theorem pcActionOfEachInstruction : Obligations.PcActionOfEachInstruction := by
  intro i s t _ h hrun
  obtain ⟨kind, -, detail, rfl⟩ | ⟨-, haction⟩ := exec_haltsOrCompletes i s t h
  · exact absurd rfl (hrun _)
  · exact haction

/-! ### The core's own step -/

section
variable {s u : State}

theorem CycleStart.pc_eq (h : CycleStart s u) : u.pc = s.pc := by
  obtain ⟨_, _, _, _, rfl⟩ := h.eq
  rfl

theorem CycleStart.mode_eq (h : CycleStart s u) : u.mode = s.mode := by
  obtain ⟨_, _, _, _, rfl⟩ := h.eq
  rfl

/-- A core step in Running mode with the word at pc outside memory halts with a fetch fault (rule R52). -/
theorem CycleStart.step_eq_fetchFault (h : CycleStart s u) (hm : s.mode = .running)
    (hpc : Config.memSize ≤ s.pc.toNat + 1) :
    step s = .next (haltedWith .memoryRangeFetch none (.address s.pc) u) := by
  have hrange : ¬ inRange u.pc 2 = true := by
    rw [inRange_iff, h.pc_eq]
    omega
  rw [h.running hm, instructionStep, if_neg hrange, raiseFault_eq, h.pc_eq]

/-- A core step in Running mode that can fetch halts with DecodeError or with a fault of the decoded instruction, never
with a fetch fault. -/
theorem CycleStart.kind_ne_memoryRangeFetch {t : State} {d : Diag} (h : CycleStart s u) (hm : s.mode = .running)
    (hpc : s.pc.toNat + 1 < Config.memSize) (hstep : step s = .next t) (hd : t.mode = .halted d) :
    d.kind ≠ .memoryRangeFetch := by
  cases hdecode : decodeWord (fetchWord s) with
  | ok i =>
    rw [h.step_eq_exec hm hpc hdecode] at hstep
    have hown := kind_mem_ownFaults_of_exec (h.mode_eq.trans hm) hstep hd
    intro e
    exact memoryRangeFetch_notMem_ownFaults i (e ▸ hown)
  | error e =>
    rw [h.step_eq_decodeError hm hpc hdecode] at hstep
    cases hstep
    rw [mode_haltedWith] at hd
    cases hd
    simp

end

/-- Settles O6: the word of the bytes at pc is the one the step decodes. -/
theorem stepRunsTheDecodedInstruction : Obligations.StepRunsTheDecodedInstruction := by
  intro s u w i hm hu hpc hw hd
  obtain rfl := fetchWord_eq_iff.mpr hw
  exact hu.step_eq_exec hm hpc hd

/-- Settles O7: outside memory the fetch faults, inside it only the decode or the instruction can. -/
theorem fetchFaultsOnlyOutsideMemory : Obligations.FetchFaultsOnlyOutsideMemory :=
  fun _ _ hm hu => ⟨fun hpc => hu.step_eq_fetchFault hm hpc, fun hpc _ _ => hu.kind_ne_memoryRangeFetch hm hpc⟩

/-- Settles O12: the exit signal is applied in every mode alike. -/
theorem hostExitEndsTheRun : Obligations.HostExitEndsTheRun :=
  fun _ _ hexit => hexit.step_eq

/-! ### The placed word -/

/-- The step's random byte is free. -/
def State.freeRandom (s : State) : State := { s with rnd := none }

theorem NoInput.cycleStart {s : State} (h : NoInput s) : CycleStart s s.freeRandom := .inl ⟨h, rfl⟩

theorem fetchablePc_inRange (s : State) : (fetchablePc s).toNat + 1 < Config.memSize := by
  unfold fetchablePc
  split
  case isTrue hrange => exact inRange_iff.mp hrange
  case isFalse => decide

/-- The two bytes written at pc are the word fetched there. -/
theorem fetchWord_placeWord {s : State} (hwf : Memory.wf s.mem = true) (w : Word) : fetchWord (placeWord s w) = w := by
  have hlen : (bytesOfWord w).length = 2 := rfl
  have hroom := fetchablePc_inRange s
  have hread (k : Nat) (hk : k < 2) :
      (placeWord s w).readByte ((placeWord s w).pc.toNat + k) = (bytesOfWord w).getD k 0 := by
    simp only [State.readByte, placeWord]
    rw [memRead_memWriteBlock hwf _ (by omega), if_pos (by omega), Nat.add_sub_cancel_left]
  rw [fetchWord, hread 1 (by omega), ← Nat.add_zero (placeWord s w).pc.toNat, hread 0 (by omega)]
  exact wordOfBytes_bytesOfWord w

/-- The host reads a table word as the decoder does. -/
theorem decodeTableWord_eq_some_iff {nbits w : Nat} {i : Instr} :
    decodeTableWord nbits w = some i ↔ decodeWord (tableWord nbits w) = .ok i := by
  rw [decodeTableWord, bytesOfWord, decode, wordOfBytes_bytesOfWord]
  cases decodeWord (tableWord nbits w) <;> simp

/-- Settles O8: the placed word is fetched, in Running mode and with no input of the host to come. -/
theorem placedWordRunsNext : Obligations.PlacedWordRunsNext := by
  intro s nbits w i hwf hd
  have hnone : NoInput (s.withFetchWord nbits w) := ⟨rfl, rfl⟩
  refine hnone.cycleStart.step_eq_exec rfl (fetchablePc_inRange s) ?_
  rw [State.withFetchWord, fetchWord_placeWord hwf]
  exact decodeTableWord_eq_some_iff.mp hd

end Sys2Proof.Machine
end

section
/-! SUPPORT. Runs without end (40_cycle_driver.md rules R56, R57 and R60): the run of ticks alone, the run of a jump to
its own address, and the fair run. -/

namespace Sys2Proof.Machine

/-! ### Runs that repeat one step -/

theorem run_succ {M : Host.Core} {s t : M.State} (h : M.step s = .next t) (n : Nat) :
    M.run (n + 1) s = M.run n t := by
  rw [Host.Core.run, h]

/-- Where every state with `P` steps by `f` and keeps `P`, a run is `f` iterated. -/
theorem run_eq_iterate {P : State → Prop} {f : State → State} (hstep : ∀ s, P s → step s = .next (f s))
    (hkeep : ∀ s, P s → P (f s)) (n : Nat) {s : State} (h : P s) :
    Host.Core.run Sys2Proof.core n s = .next (f^[n] s) := by
  induction n generalizing s with
  | zero => rfl
  | succ n ih =>
    rw [Function.iterate_succ_apply]
    exact (run_succ (M := Sys2Proof.core) (hstep s h) n).trans (ih (hkeep s h))

/-! ### Ticks alone -/

/-- The core is Running, and its host ticks and does nothing else. -/
def TicksAlone (s : State) : Prop := s.mode = .running ∧ s.script = [] ∧ s.plan = .repeats .tick []

theorem TicksAlone.step_eq {s : State} (h : TicksAlone s) : step s = .next (tick s) := by
  obtain ⟨hm, hscript, hplan⟩ := h
  have hnext : NextInput s .tick s := .inr ⟨hscript, .inl ⟨[], hplan, by rw [← hscript]⟩⟩
  have henabled : tickEnabled Config.params s.mode = true := by rw [hm]; rfl
  rw [hnext.step_eq, applyInput, hostTick, if_pos henabled]

theorem TicksAlone.tick {s : State} (h : TicksAlone s) : TicksAlone (tick s) := h

theorem tick_DT_toNat (s : State) : (tick s).DT.toNat = s.DT.toNat - 1 := countDown_toNat s.DT

theorem tick_ST_toNat (s : State) : (tick s).ST.toNat = s.ST.toNat - 1 := countDown_toNat s.ST

theorem iterate_tick_DT_toNat (n : Nat) (s : State) : (tick^[n] s).DT.toNat = s.DT.toNat - n := by
  induction n with
  | zero => rfl
  | succ n ih => rw [Function.iterate_succ_apply', tick_DT_toNat, ih, Nat.sub_sub]

theorem iterate_tick_ST_toNat (n : Nat) (s : State) : (tick^[n] s).ST.toNat = s.ST.toNat - n := by
  induction n with
  | zero => rfl
  | succ n ih => rw [Function.iterate_succ_apply', tick_ST_toNat, ih, Nat.sub_sub]

/-- Ticks leave pc alone, and all but the timers. -/
theorem iterate_tick_frame (n : Nat) (s : State) :
    (tick^[n] s).pc = s.pc ∧ FrameBut [] [.delayTimer, .soundTimer] s (tick^[n] s) := by
  induction n with
  | zero => exact ⟨rfl, .refl _ _ s⟩
  | succ n ih =>
    obtain ⟨hpc, hframe⟩ := ih
    rw [Function.iterate_succ_apply']
    exact ⟨hpc, (hframe.setDT (by simp)).setST (by simp)⟩

/-! ### A jump to its own address -/

theorem FrameBut.freeRandom {regs : List Reg} {parts : List Part} {s t : State} (h : FrameBut regs parts s t)
    (hr : .random ∈ parts) : FrameBut regs parts s t.freeRandom := by
  refine ⟨h.1, fun p hp => ?_⟩
  cases p with
  | random => exact absurd hr hp
  | _ => exact h.2 _ hp

/-- The core is Running at a jump to the jump's own address, and no input of its host is to come. -/
structure JumpsToItself (s : State) : Prop where
  running  : s.mode = .running
  no_input : NoInput s
  fetch    : s.pc.toNat + 1 < Config.memSize
  jump     : ∃ nnn, decodeWord (fetchWord s) = .ok (.jp nnn) ∧ s.pc.toNat = nnn.toNat

theorem JumpsToItself.step_eq {s : State} (h : JumpsToItself s) : step s = .next s.freeRandom := by
  obtain ⟨nnn, hd, hpc⟩ := h.jump
  have htarget : zext16 nnn = s.pc := BitVec.eq_of_toNat_eq ((zext16_toNat nnn).trans hpc.symm)
  rw [h.no_input.cycleStart.step_eq_exec h.running h.fetch hd, exec, execJp, htarget]
  rfl

theorem JumpsToItself.freeRandom {s : State} (h : JumpsToItself s) : JumpsToItself s.freeRandom :=
  ⟨h.running, h.no_input, h.fetch, h.jump⟩

theorem iterate_freeRandom_frame (n : Nat) (s : State) :
    (State.freeRandom^[n] s).pc = s.pc ∧ FrameBut [] [.random] s (State.freeRandom^[n] s) := by
  induction n with
  | zero => exact ⟨rfl, .refl _ _ s⟩
  | succ n ih =>
    obtain ⟨hpc, hframe⟩ := ih
    rw [Function.iterate_succ_apply']
    exact ⟨hpc, hframe.freeRandom (by simp)⟩

/-! ### A fair run -/

/-- A step that ticks a running core lowers DT, unless it is 0. -/
theorem TickTaken.DT_le {s t : State} (h : TickTaken s) (hm : s.mode = .running) (hstep : step s = .next t) :
    t.DT.toNat ≤ s.DT.toNat - 1 := by
  obtain ⟨u, hu⟩ | ⟨now, u, hu, helapsed⟩ := h <;> rw [hu.step_eq] at hstep <;> obtain ⟨_, _, rfl⟩ := hu.eq
  · rw [applyInput, hostTick, if_pos (by simp [hm, tickEnabled])] at hstep
    cases hstep
    exact (tick_DT_toNat _).le
  · rw [applyInput, timebase, if_pos (by simp [hm, tickEnabled])] at hstep
    obtain ⟨_, _, hcatch, hDT, -⟩ := catchUp_eq ((now - s.tLast) / Config.tickInterval) _
    have hone : 1 ≤ (now - s.tLast) / Config.tickInterval :=
      (Nat.one_le_div_iff (by decide)).mpr (Nat.le_sub_of_add_le' helapsed)
    rw [hcatch] at hstep
    cases hstep
    rw [hDT]
    exact Nat.sub_le_sub_left hone _

/-- A sequence that never rises from `n` on, and after every later point falls or is 0, is 0 from some point on: it is
constant from some point on, and where it then falls it is 0. -/
theorem eventually_zero_of_falls {f : Nat → Nat} {n : Nat} (hanti : ∀ m, n ≤ m → f (m + 1) ≤ f m)
    (hfall : ∀ m, n ≤ m → ∃ k, m ≤ k ∧ f (k + 1) ≤ f k - 1) : ∃ m, n ≤ m ∧ ∀ k, m ≤ k → f k = 0 := by
  obtain ⟨N, hN⟩ := WellFoundedLT.antitone_chain_condition (antitone_add_nat_of_succ_le hanti)
  have hconst (k : Nat) (hk : N + n ≤ k) : f k = f (N + n) := by
    obtain ⟨j, rfl⟩ := Nat.exists_eq_add_of_le' (Nat.le_of_add_left_le hk)
    exact (hN j (by omega)).symm
  obtain ⟨k, hk, hlow⟩ := hfall (N + n) (by omega)
  rw [hconst k hk, hconst (k + 1) (by omega)] at hlow
  exact ⟨N + n, by omega, fun j hj => (hconst j hj).trans (by omega)⟩

/-- In a fair run that stays Running, a tick comes after every point, and it lowers DT unless it is 0 (rule R57). -/
theorem FairRun.exists_DT_le {r : Nat → State} (h : FairRun r) {n : Nat} (hrun : ∀ m, n ≤ m → (r m).mode = .running) :
    ∃ m, n ≤ m ∧ (r (m + 1)).DT.toNat ≤ (r m).DT.toNat - 1 := by
  obtain ⟨m, hm, htick | hdisabled⟩ := h.tick_fair n
  · exact ⟨m, hm, htick.DT_le (hrun m hm) (h.steps m)⟩
  · simp [hrun m hm, tickEnabled] at hdisabled

/-- Settles O59: the two unfair runs repeat one step, and in the fair run DT never rises and falls again and again. -/
theorem progressNeedsFairness : Obligations.ProgressNeedsFairness := by
  refine ⟨fun s n hm hscript hplan => ?_, fun s n nnn hm hnone hself hpc hd => ?_, fun r n hfair hquiet => ?_⟩
  · have hticks : TicksAlone s := ⟨hm, hscript, hplan⟩
    obtain ⟨hpc, hframe⟩ := iterate_tick_frame n s
    exact ⟨tick^[n] s, run_eq_iterate (fun _ => TicksAlone.step_eq) (fun _ => TicksAlone.tick) n hticks, hpc,
      iterate_tick_DT_toNat n s, iterate_tick_ST_toNat n s, hframe⟩
  · have hjump : JumpsToItself s := ⟨hm, hnone, hpc, nnn, hd, hself⟩
    exact ⟨State.freeRandom^[n] s,
      run_eq_iterate (fun _ => JumpsToItself.step_eq) (fun _ => JumpsToItself.freeRandom) n hjump,
      iterate_freeRandom_frame n s⟩
  · obtain ⟨m, hm, hzero⟩ := eventually_zero_of_falls (f := fun m => (r m).DT.toNat) (fun m hm => (hquiet m hm).2)
      fun m hm => hfair.exists_DT_le fun k hk => (hquiet k (hm.trans hk)).1
    exact ⟨m, hm, fun k hk => BitVec.eq_of_toNat_eq (hzero k hk)⟩

end Sys2Proof.Machine
end

section
/-! SUPPORT. The invariant of the states a run can reach: what each update of the state, each instruction and each
input of the host does to it. -/

namespace Sys2Proof.Machine

/-! ### One invariant rule per update -/

theorem trunc16_toNat_le (v : Nat) : (trunc16 v).toNat ≤ v := by
  rw [trunc16, BitVec.toNat_ofNat]
  exact Nat.mod_le _ _

section
variable {s t : State}

/-- The invariant speaks of memory, pc, the stack and the mode only. -/
theorem Inv.congr (h : Inv s) (hmem : t.mem = s.mem) (hpc : t.pc = s.pc) (hstack : t.stack = s.stack)
    (hSP : t.SP = s.SP) (hmode : t.mode = s.mode) : Inv t where
  mem_wf     := hmem ▸ h.mem_wf
  pc_le      := hpc ▸ h.pc_le
  stack_live := by rw [hstack, hSP]; exact h.stack_live
  waiting_pc := by rw [hmode, hpc]; exact h.waiting_pc
  halted_pc  := by rw [hmode, hpc]; exact h.halted_pc

/-- A running core is neither waiting nor halted, so its pc is bounded by R65 alone. -/
theorem Inv.setPc {a : Word} (h : Inv s) (hrun : s.mode = .running) (ha : a.toNat ≤ 0x10FE) : Inv (s.setPc a) where
  mem_wf     := h.mem_wf
  pc_le      := ha
  stack_live := h.stack_live
  waiting_pc := by simp [hrun]
  halted_pc  := by simp [hrun]

/-- From an address a word can be fetched from, advancing and skipping stay below the bound on pc. -/
theorem Inv.advance {k : Nat} (h : Inv s) (hrun : s.mode = .running) (hpc : s.pc.toNat ≤ lastFetch) (hk : k ≤ 4) :
    Inv (s.advance k) := by
  have hsum : s.pc.toNat + k ≤ 0x10FE := (Nat.add_le_add hpc hk).trans (by decide)
  exact h.setPc hrun ((trunc16_toNat_le _).trans hsum)

/-- A block write inside the address space keeps memory canonical. -/
theorem Inv.setMem_memWriteBlock {a : Nat} {vs : List Byte} (h : Inv s) (hrange : a + vs.length ≤ Config.memSize) :
    Inv (s.setMem (memWriteBlock s.mem a vs)) :=
  ⟨wf_memWriteBlock h.mem_wf vs hrange, h.pc_le, h.stack_live, h.waiting_pc, h.halted_pc⟩

theorem Inv.pushReturn {a : Word} (h : Inv s) (ha : a.toNat ≤ lastFetch) (hroom : s.SP.val ≠ Config.stackDepth) :
    Inv (s.pushReturn a) where
  mem_wf     := h.mem_wf
  pc_le      := h.pc_le
  stack_live := by
    intro j hj
    rw [pushReturn_SP_val a hroom] at hj
    rw [getElem_pushReturn_stack]
    split
    case isTrue => exact ha
    case isFalse hold => exact h.stack_live j (by omega)
  waiting_pc := h.waiting_pc
  halted_pc  := h.halted_pc

theorem Inv.popReturn (h : Inv s) : Inv s.popReturn where
  mem_wf     := h.mem_wf
  pc_le      := h.pc_le
  stack_live := by
    intro j hj
    rw [popReturn_SP_val] at hj
    exact h.stack_live j (by omega)
  waiting_pc := h.waiting_pc
  halted_pc  := h.halted_pc

theorem Inv.stackTop_le (h : Inv s) (hpos : s.SP.val ≠ 0) : s.stackTop.toNat ≤ lastFetch :=
  h.stack_live ⟨s.SP.val - 1, by omega⟩ (Nat.sub_one_lt hpos)

theorem Inv.setMode_running (h : Inv s) : Inv (s.setMode .running) :=
  ⟨h.mem_wf, h.pc_le, h.stack_live, nofun, nofun⟩

theorem Inv.setMode_waiting {x : Reg} {prev : KeySample} (h : Inv s) (hpc : s.pc.toNat ≤ lastFetch) :
    Inv (s.setMode (.waiting x prev)) :=
  ⟨h.mem_wf, h.pc_le, h.stack_live, fun _ _ _ => hpc, nofun⟩

theorem Inv.haltedWith {kind : FaultKind} {word : Option Word} {detail : Detail} (h : Inv s)
    (hkind : kind ≠ .loadError) : Inv (haltedWith kind word detail s) where
  mem_wf     := h.mem_wf
  pc_le      := h.pc_le
  stack_live := h.stack_live
  waiting_pc := nofun
  halted_pc  := by rintro _ ⟨⟩; exact ⟨rfl, hkind⟩

theorem Inv.raiseFault {kind : FaultKind} {word : Option Word} {detail : Detail} (h : Inv s)
    (hkind : kind ≠ .loadError) : EndsIn Inv (raiseFault kind word detail s) :=
  .next (h.haltedWith hkind)

/-- Reset empties the stack and leaves memory as it is. -/
theorem Inv.resetWith (h : Inv s) (now : Nat) : Inv (resetWith Config.params now s) where
  mem_wf     := h.mem_wf
  pc_le      := show Config.params.loadBase.toNat ≤ 0x10FE by decide
  stack_live := fun j hj => absurd hj (Nat.not_lt_zero j)
  waiting_pc := nofun
  halted_pc  := nofun

end

/-! ### The invariant through an instruction -/

section
variable {s : State}

theorem Inv.skipIf {taken : Bool} (h : Inv s) (hrun : s.mode = .running) (hpc : s.pc.toNat ≤ lastFetch) :
    EndsIn Inv (skipIf taken s) :=
  .next (h.advance hrun hpc (by cases taken <;> simp))

/-- Every instruction keeps the invariant where a running core has fetched it. -/
theorem exec_keepsInv (i : Instr) (h : Inv s) (hrun : s.mode = .running) (hpc : s.pc.toNat ≤ lastFetch) :
    EndsIn Inv (exec i s) := by
  cases i with
  | sys _ => exact h.raiseFault (by simp)
  | jp nnn => exact .next (h.setPc hrun (by rw [zext16_toNat]; omega))
  | jpV0 nnn => exact .next (h.setPc hrun ((trunc16_toNat_le _).trans (by omega)))
  | call nnn =>
    exact .ite (fun _ => h.raiseFault (by simp))
      fun hroom => .next ((h.pushReturn hpc hroom).setPc hrun (by rw [zext16_toNat]; omega))
  | ret =>
    refine .ite (fun _ => h.raiseFault (by simp)) fun hpos => .next (h.popReturn.setPc hrun ?_)
    have htop : s.stackTop.toNat + 2 ≤ 0x10FE := (Nat.add_le_add_right (h.stackTop_le hpos) 2).trans (by decide)
    exact (trunc16_toNat_le _).trans htop
  | seImm _ _ | sneImm _ _ | seReg _ _ | sneReg _ _ => exact h.skipIf hrun hpc
  | skp _ | sknp _ =>
    simp only [exec, execSkp, execSknp, skpWith, sknpWith]
    split
    · exact h.raiseFault (by simp)
    · exact h.skipIf hrun hpc
  | ldVK _ => exact .next (h.setMode_waiting hpc)
  | drw _ _ _ =>
    exact .ite (fun _ => h.raiseFault (by simp))
      fun _ => .next (Inv.advance (h.congr rfl rfl rfl rfl rfl) hrun hpc (by simp))
  | ldRegs _ =>
    exact .ite (fun _ => .next (Inv.advance (h.congr rfl rfl rfl rfl rfl) hrun hpc (by simp)))
      fun _ => h.raiseFault (by simp)
  | ldB _ =>
    exact .ite
      (fun hrange => .next (Inv.advance (h.setMem_memWriteBlock (inRange_iff.mp hrange)) hrun hpc (by simp)))
      fun _ => h.raiseFault (by simp)
  | stRegs x =>
    have hblock (hrange : inRange s.I (x.val + 1) = true) :
        s.I.toNat + (blockRegs s x).length ≤ Config.memSize := by
      rw [length_blockRegs]
      exact inRange_iff.mp hrange
    exact .ite
      (fun hrange => .next (Inv.advance (h.setMem_memWriteBlock (hblock hrange)) hrun hpc (by simp)))
      fun _ => h.raiseFault (by simp)
  | _ => exact .next (Inv.advance (h.congr rfl rfl rfl rfl rfl) hrun hpc (by simp))

/-! ### The invariant through a step -/

/-- A running core whose fetch is out of range halts where it is, so an instruction is only run at a `pc` that can be
pushed and advanced. -/
theorem Inv.instructionStep (h : Inv s) (hrun : s.mode = .running) : EndsIn Inv (instructionStep s) := by
  refine .ite (fun hrange => ?_) fun _ => h.raiseFault (by simp)
  have hpc : s.pc.toNat ≤ lastFetch := Nat.le_of_add_le_add_right (inRange_iff.mp hrange)
  split
  · exact exec_keepsInv _ h hrun hpc
  · exact h.raiseFault (by simp)

/-- A poll waits on at its instruction, or runs on past it (46_keypad.md rule R93). -/
theorem Inv.poll {x : Reg} {prev : KeySample} (h : Inv s) (hpc : s.pc.toNat ≤ lastFetch) : Inv (poll x prev s) := by
  unfold Machine.poll
  split
  · exact Inv.advance (Inv.setMode_running (h.congr rfl rfl rfl rfl rfl)) rfl hpc (by simp)
  · exact h.setMode_waiting hpc

theorem Inv.cycleStep {keys : KeySample} {rnd : Option Byte} (h : Inv s) : EndsIn Inv (cycleStep keys rnd s) := by
  unfold Machine.cycleStep
  split
  case h_1 hrun => exact Inv.instructionStep (h.congr rfl rfl rfl rfl rfl) hrun
  case h_2 hwait => exact .next (Inv.poll (h.congr rfl rfl rfl rfl rfl) (h.waiting_pc _ _ hwait))
  case h_3 => exact .next h

theorem Inv.hostTick (h : Inv s) (p : Params) : Inv (hostTick p s) := by
  unfold Machine.hostTick
  split
  · exact h.congr rfl rfl rfl rfl rfl
  · exact h

theorem Inv.timebase (h : Inv s) (p : Params) (now : Nat) : Inv (timebase p now s) := by
  unfold Machine.timebase
  split
  · obtain ⟨_, _, hcatch, -, -⟩ := catchUp_eq ((now - s.tLast) / Config.tickInterval) s
    rw [hcatch]
    exact h.congr rfl rfl rfl rfl rfl
  · exact h.congr rfl rfl rfl rfl rfl

theorem Inv.applyInput (h : Inv s) (inp : Input) : EndsIn Inv (applyInput inp s) := by
  cases inp with
  | cycle keys rnd => exact h.cycleStep
  | tick => exact .next (h.hostTick _)
  | clock now => exact .next (h.timebase _ now)
  | reset now => exact .next (h.resetWith now)
  | exit => nofun

theorem Inv.unattendedStep (h : Inv s) : EndsIn Inv (unattendedStep s) := by
  unfold Machine.unattendedStep
  split
  · nofun
  · exact h.cycleStep
  · exact h.cycleStep

end

/-- Taking an input of the host leaves the invariant's fields alone. -/
theorem NextInput.inv {s u : State} {inp : Input} (hnext : NextInput s inp u) (h : Inv s) : Inv u := by
  obtain ⟨_, _, rfl⟩ := hnext.eq
  exact h.congr rfl rfl rfl rfl rfl

/-- Settles O20: a step is an input of the host taken and applied, or the core's own with no input to come. -/
theorem stepKeepsInvariant : Obligations.StepKeepsInvariant := by
  intro s t h hstep
  cases htake : takeInput s with
  | none =>
    rw [(takeInput_eq_none.mp htake).step_eq] at hstep
    exact h.unattendedStep t hstep
  | some next =>
    obtain ⟨inp, u⟩ := next
    have hnext : NextInput s inp u := takeInput_eq_some.mp htake
    rw [hnext.step_eq] at hstep
    exact (hnext.inv h).applyInput inp t hstep

end Sys2Proof.Machine
end

section
/-! SUPPORT. Control flow: SYS, JP, CALL, RET and JP V0 (41_control_flow.md rules R61 to R65). -/

namespace Sys2Proof.Machine

/-! ### SYS and the jumps -/

theorem encode_sys (nnn : Addr12) : encode (.sys nnn) = BitVec.ofNat 16 nnn.toNat := by
  simp [encode, wordNNN]

theorem sysWith_nop {p : Params} (nnn : Addr12) (s : State) (hnop : p.sysMode = .nop) :
    sysWith p nnn s = .next (s.advance 2) := by
  rw [sysWith, hnop]

/-- Settles O26: this hardware's SYS_MODE is Halt, and the diagnostic's word is the instruction's encoding. -/
theorem sysRaisesUnsupportedSys : Obligations.SysRaisesUnsupportedSys := by
  refine ⟨fun nnn s => ?_, fun p nnn s hnop => ?_⟩
  · rw [← encode_sys]
    rfl
  · exact ⟨s.advance 2, sysWith_nop nnn s hnop, advanced_of_pc_eq rfl, (FrameBut.refl [] [] s).advance⟩

/-- Settles O27: the target is the operand, widened with zeros. -/
theorem jumpSetsPc : Obligations.JumpSetsPc :=
  fun nnn s => ⟨s.setPc (zext16 nnn), rfl, zext16_toNat nnn, (FrameBut.refl [] [] s).setPc⟩

/-- Settles O31: the sum of a 12-bit and an 8-bit number fits in pc. -/
theorem indexedJumpAddsV0 : Obligations.IndexedJumpAddsV0 :=
  fun nnn s => ⟨_, rfl, trunc16_addr_add_byte nnn (s.getV 0), (FrameBut.refl [] [] s).setPc⟩

/-! ### CALL and RET -/

/-- Settles O28: with room CALL is a push of pc and a jump. -/
theorem callPushesItsAddress : Obligations.CallPushesItsAddress := by
  refine fun nnn s => ⟨fun hroom => ?_, fun hfull => ?_⟩
  · have hne : s.SP.val ≠ Config.stackDepth := hroom.ne
    exact ⟨_, exec_call_room nnn hne, pushReturn_SP_val s.pc hne, zext16_toNat nnn, getElem_pushReturn_stack s s.pc,
      ((FrameBut.refl [] [.stack] s).pushReturn (by simp)).setPc⟩
  · rw [exec_call_full nnn hfull, hfull]
    rfl

/-- Settles O29: with a live entry RET is a pop and a jump 2 past the entry. -/
theorem returnPopsAndResumes : Obligations.ReturnPopsAndResumes := by
  refine fun s => ⟨fun j hj => ?_, fun hempty => ?_⟩
  · have htop : s.stackTop = s.stack[j] := by simp [State.stackTop, hj]
    refine ⟨_, exec_ret_live (by omega), ?_, rfl, ?_, ((FrameBut.refl [] [.stack] s).popReturn (by simp)).setPc⟩
    · rw [setPc_SP, popReturn_SP_val, hj, Nat.add_sub_cancel]
    · rw [setPc_pc, trunc16, BitVec.toNat_ofNat, htop]
  · rw [exec_ret_empty hempty, hempty]
    rfl

theorem Kept.trans {s t u : State} {p : Part} (h : Kept s t p) (h' : Kept t u p) : Kept s u p := by
  cases p with
  | index | delayTimer | soundTimer | mode => exact Eq.trans h' h
  | stack | random => exact ⟨h'.1.trans h.1, h'.2.trans h.2⟩
  | display => exact fun x y => (h' x y).trans (h x y)
  | memory => exact fun a => (h' a).trans (h a)
  | host =>
    obtain ⟨hkeys, hscript, hplan, htaken, htime⟩ := h
    obtain ⟨hkeys', hscript', hplan', htaken', htime'⟩ := h'
    exact ⟨hkeys'.trans hkeys, hscript'.trans hscript, hplan'.trans hplan, htaken'.trans htaken, htime'.trans htime⟩

/-- What two steps in turn both leave alone, they leave alone together. -/
theorem FrameBut.trans {regs : List Reg} {parts : List Part} {s t u : State} (h : FrameBut regs parts s t)
    (h' : FrameBut regs parts t u) : FrameBut regs parts s u :=
  ⟨fun r hr => (h'.1 r hr).trans (h.1 r hr), fun p hp => (h.2 p hp).trans (h'.2 p hp)⟩

/-- Settles O30: RET pops the entry that CALL pushed, which is the CALL's own address. -/
theorem callThenReturnRoundTrip : Obligations.CallThenReturnRoundTrip := by
  intro nnn s hroom
  obtain ⟨t, hcall, hpush, -, hentry, hframe⟩ := (callPushesItsAddress nnn s).1 hroom
  obtain ⟨u, hret, hpop, hstack, hpc, hframe'⟩ := (returnPopsAndResumes t).1 ⟨s.SP.val, hroom⟩ hpush
  refine ⟨t, u, hcall, hret, Fin.ext hpop, ?_, fun j hj => ?_, hframe.trans hframe'⟩
  · rw [Advanced, hpc, hentry, if_pos rfl]
  · rw [hstack, hentry, if_neg hj.ne]

end Sys2Proof.Machine
end

section
/-! SUPPORT. The conditional skips (42_skips.md rules R66 to R69): a test, then one shared way to advance. -/

namespace Sys2Proof.Machine

/-- A skip moves pc past the next instruction if it is taken, and changes nothing else (40_cycle_driver.md rule R54). -/
theorem skipIf_advances (taken : Bool) (s : State) :
    ∃ t, skipIf taken s = .next t ∧ Advanced (if taken then 4 else 2) s t ∧ FrameBut [] [] s t :=
  ⟨_, rfl, advanced_of_pc_eq rfl, (FrameBut.refl [] [] s).advance⟩

theorem skipIf_beq_advances (a b : Byte) (s : State) :
    ∃ t, skipIf (a == b) s = .next t ∧ Advanced (if a = b then 4 else 2) s t ∧ FrameBut [] [] s t := by
  simpa only [beq_iff_eq] using skipIf_advances (a == b) s

theorem skipIf_bne_advances (a b : Byte) (s : State) :
    ∃ t, skipIf (a != b) s = .next t ∧ Advanced (if a = b then 2 else 4) s t ∧ FrameBut [] [] s t := by
  simpa only [bne_iff_ne, ite_not] using skipIf_advances (a != b) s

/-- Settles O32: both instructions are a skip on the register against the immediate. -/
theorem immediateSkips : Obligations.ImmediateSkips :=
  fun x kk s => ⟨skipIf_beq_advances (s.getV x) kk s, skipIf_bne_advances (s.getV x) kk s⟩

/-- Settles O33: both instructions are a skip on the first register against the second. -/
theorem registerSkips : Obligations.RegisterSkips :=
  fun x y s => ⟨skipIf_beq_advances (s.getV x) (s.getV y) s, skipIf_bne_advances (s.getV x) (s.getV y) s⟩

end Sys2Proof.Machine
end

section
/-! SUPPORT. The ALU on Vx, Vy (43_alu.md rules R70 to R80): a register copy, the logic instructions, and the five
instructions that write a result and a flag. -/

namespace Sys2Proof.Machine

/-! ### Writing one register -/

/-- What a meaning that only writes Vx and advances does. -/
theorem setV_advance_ends (x : Reg) (v : Byte) (s : State) :
    ∃ t, (.next ((s.setV x v).advance 2) : Host.Outcome State Fault Refusal) = .next t ∧ t.getV x = v ∧
      Advanced 2 s t ∧ FrameBut [x] [] s t :=
  ⟨_, rfl, getV_setV_same s x v, advanced_of_pc_eq rfl, ((FrameBut.refl [x] [] s).setV (by simp)).advance⟩

/-- Settles O34: the copy writes Vx and nothing else. -/
theorem registerCopy : Obligations.RegisterCopy :=
  fun x y s => setV_advance_ends x (s.getV y) s

/-- With LOGIC_VF_RESET the second write of a logic instruction clears VF, which is Vx itself for x = 15. -/
theorem writeLogic_reset_ends {vfReset : Bool} (hreset : vfReset = true) (x : Reg) (res : Byte) (s : State) :
    ∃ t, (.next ((writeLogic vfReset x res s).advance 2) : Host.Outcome State Fault Refusal) = .next t ∧
      (x ≠ VF → t.getV x = res) ∧ t.getV VF = 0 ∧ Advanced 2 s t ∧ FrameBut [x, VF] [] s t := by
  subst hreset
  refine ⟨_, rfl, fun hx => ?_, getV_setV_same _ VF 0, advanced_of_pc_eq rfl,
    ((FrameBut.refl [x, VF] [] s).writeLogic (by simp) (by simp)).advance⟩
  exact (getV_setV_other _ 0 hx).trans (getV_setV_same s x res)

/-- Settles O35: this hardware's LOGIC_VF_RESET is off, so a logic instruction writes Vx alone. -/
theorem logicInstructions : Obligations.LogicInstructions :=
  ⟨fun x y s => ⟨setV_advance_ends x (s.getV x ||| s.getV y) s, setV_advance_ends x (s.getV x &&& s.getV y) s,
      setV_advance_ends x (s.getV x ^^^ s.getV y) s⟩,
    fun _ x y s hreset => ⟨writeLogic_reset_ends hreset x (s.getV x ||| s.getV y) s,
      writeLogic_reset_ends hreset x (s.getV x &&& s.getV y) s,
      writeLogic_reset_ends hreset x (s.getV x ^^^ s.getV y) s⟩⟩

/-! ### Results and flags in arithmetic -/

theorem addByte_toNat (a b : Byte) : (addByte a b).toNat = (a.toNat + b.toNat) % 256 :=
  BitVec.toNat_ofNat _ 8

theorem subByte_toNat (a b : Byte) : (subByte a b).toNat = (256 + a.toNat - b.toNat) % 256 := by
  rw [subByte, trunc8, BitVec.toNat_ofNat, Nat.add_comm a.toNat]

theorem shiftRightByte_toNat (v : Byte) : (shiftRightByte v).toNat = v.toNat / 2 := by
  rw [shiftRightByte, BitVec.toNat_ushiftRight, Nat.shiftRight_one]

theorem shiftLeftByte_toNat (v : Byte) : (shiftLeftByte v).toNat = v.toNat * 2 % 256 := by
  rw [shiftLeftByte, BitVec.toNat_shiftLeft, Nat.shiftLeft_eq, pow_one]

theorem flagByte_toNat (b : Bool) : (flagByte b).toNat = b.toNat := by
  cases b <;> rfl

theorem flagByte_decide_toNat (c : Prop) [Decidable c] : (flagByte (decide c)).toNat = if c then 1 else 0 := by
  rw [flagByte_toNat, Bool.toNat, Bool.cond_decide]

theorem flagByte_getLsbD_toNat (v : Byte) (i : Nat) : (flagByte (v.getLsbD i)).toNat = v.toNat / 2 ^ i % 2 := by
  rw [flagByte_toNat, ← BitVec.testBit_toNat, Nat.toNat_testBit]

theorem shiftedOutLow_toNat (v : Byte) : (flagByte (shiftedOutLow v)).toNat = v.toNat % 2 := by
  rw [shiftedOutLow, flagByte_getLsbD_toNat, pow_zero, Nat.div_one]

theorem shiftedOutHigh_toNat (v : Byte) : (flagByte (shiftedOutHigh v)).toNat = v.toNat / 128 := by
  have hbit : v.toNat / 2 ^ 7 < 2 := Nat.div_lt_of_lt_mul v.isLt
  exact (flagByte_getLsbD_toNat v 7).trans (Nat.mod_eq_of_lt hbit)

/-! ### Writing a result and a flag -/

/-- From `s` the outcome is a next state with the result in Vx and the flag in VF, as far as the order of the two
writes leaves them (rule R71): for x = 15 the later write stands. -/
def WritesFlagged (o : Host.Outcome State Fault Refusal) (order : VfOrder) (x : Reg) (res flag : Nat)
    (s : State) : Prop :=
  ∃ t, o = .next t ∧ (x ≠ VF ∨ order = .resultLast → (t.getV x).toNat = res) ∧
    (x ≠ VF ∨ order = .flagLast → (t.getV VF).toNat = flag) ∧ Advanced 2 s t ∧ FrameBut [x, VF] [] s t

theorem writeWithFlag_result {order : VfOrder} {x : Reg} (res : Byte) (flag : Bool) (s : State)
    (h : x ≠ VF ∨ order = .resultLast) : (writeWithFlag order x res flag s).getV x = res := by
  cases order with
  | resultLast => exact getV_setV_same _ x res
  | flagLast =>
    have hx : x ≠ VF := h.resolve_right nofun
    exact (getV_setV_other _ _ hx).trans (getV_setV_same s x res)

theorem writeWithFlag_flag {order : VfOrder} {x : Reg} (res : Byte) (flag : Bool) (s : State)
    (h : x ≠ VF ∨ order = .flagLast) : (writeWithFlag order x res flag s).getV VF = flagByte flag := by
  cases order with
  | flagLast => exact getV_setV_same _ VF _
  | resultLast =>
    have hx : x ≠ VF := h.resolve_right nofun
    exact (getV_setV_other _ _ hx.symm).trans (getV_setV_same s VF _)

theorem writeWithFlag_pc (order : VfOrder) (x : Reg) (res : Byte) (flag : Bool) (s : State) :
    (writeWithFlag order x res flag s).pc = s.pc := by
  cases order <;> rfl

theorem writeWithFlag_writesFlagged (order : VfOrder) (x : Reg) {res : Byte} {flag : Bool} (s : State) {r f : Nat}
    (hres : res.toNat = r) (hflag : (flagByte flag).toNat = f) :
    WritesFlagged (.next ((writeWithFlag order x res flag s).advance 2)) order x r f s := by
  refine ⟨_, rfl, fun h => ?_, fun h => ?_, advanced_of_pc_eq (writeWithFlag_pc order x res flag s),
    ((FrameBut.refl [x, VF] [] s).writeWithFlag (by simp) (by simp)).advance⟩
  · rw [getV_advance, writeWithFlag_result res flag s h, hres]
  · rw [getV_advance, writeWithFlag_flag res flag s h, hflag]

section
variable {o : Host.Outcome State Fault Refusal} {order : VfOrder} {x : Reg} {res flag : Nat} {s : State}

/-- With the flag written last VF is the flag for every x. -/
theorem WritesFlagged.flagLast (h : WritesFlagged o .flagLast x res flag s) :
    ∃ t, o = .next t ∧ (x ≠ VF → (t.getV x).toNat = res) ∧ (t.getV VF).toNat = flag ∧ Advanced 2 s t ∧
      FrameBut [x, VF] [] s t := by
  obtain ⟨t, ho, hres, hflag, hpc, hframe⟩ := h
  exact ⟨t, ho, fun hx => hres (.inl hx), hflag (.inr rfl), hpc, hframe⟩

/-- The same for a flag that is a condition, as the byte that VF holds. -/
theorem WritesFlagged.flagLast_ite {c : Prop} [Decidable c]
    (h : WritesFlagged o .flagLast x res (if c then 1 else 0) s) :
    ∃ t, o = .next t ∧ (x ≠ VF → (t.getV x).toNat = res) ∧ t.getV VF = (if c then 1 else 0) ∧ Advanced 2 s t ∧
      FrameBut [x, VF] [] s t := by
  obtain ⟨t, ho, hres, hflag, hpc, hframe⟩ := h.flagLast
  have hbyte : t.getV VF = if c then 1 else 0 := by
    apply BitVec.eq_of_toNat_eq
    rw [hflag]
    split <;> rfl
  exact ⟨t, ho, hres, hbyte, hpc, hframe⟩

/-- The two orders side by side: they agree for x other than 15. -/
theorem WritesFlagged.orders (h : WritesFlagged o order x res flag s) :
    ∃ t, o = .next t ∧ (x ≠ VF → (t.getV x).toNat = res ∧ (t.getV VF).toNat = flag) ∧
      (x = VF → order = .flagLast → (t.getV VF).toNat = flag) ∧
      (x = VF → order = .resultLast → (t.getV VF).toNat = res) ∧ Advanced 2 s t ∧ FrameBut [x, VF] [] s t := by
  obtain ⟨t, ho, hres, hflag, hpc, hframe⟩ := h
  refine ⟨t, ho, fun hx => ⟨hres (.inl hx), hflag (.inl hx)⟩, fun _ hlast => hflag (.inr hlast), ?_, hpc, hframe⟩
  rintro rfl hlast
  exact hres (.inr hlast)

end

/-! ### The five instructions with a flag, at any parameters -/

section
variable (p : Params) (x y : Reg) (s : State)

theorem addWith_writesFlagged : WritesFlagged (addWith p x y s) p.vfOrder x
    (((s.getV x).toNat + (s.getV y).toNat) % 256) (if (s.getV x).toNat + (s.getV y).toNat > 255 then 1 else 0) s :=
  writeWithFlag_writesFlagged _ x s (addByte_toNat _ _) (flagByte_decide_toNat _)

theorem subWith_writesFlagged : WritesFlagged (subWith p x y s) p.vfOrder x
    ((256 + (s.getV x).toNat - (s.getV y).toNat) % 256) (if (s.getV x).toNat ≥ (s.getV y).toNat then 1 else 0) s :=
  writeWithFlag_writesFlagged _ x s (subByte_toNat _ _) (flagByte_decide_toNat _)

theorem subnWith_writesFlagged : WritesFlagged (subnWith p x y s) p.vfOrder x
    ((256 + (s.getV y).toNat - (s.getV x).toNat) % 256) (if (s.getV y).toNat ≥ (s.getV x).toNat then 1 else 0) s :=
  writeWithFlag_writesFlagged _ x s (subByte_toNat _ _) (flagByte_decide_toNat _)

variable {p x y s} {v : Byte} (hv : shiftOperand p.shiftSource x y s = v)
include hv

theorem shrWith_writesFlagged :
    WritesFlagged (shrWith p x y s) p.vfOrder x (v.toNat / 2) (v.toNat % 2) s := by
  subst hv
  exact writeWithFlag_writesFlagged _ x s (shiftRightByte_toNat _) (shiftedOutLow_toNat _)

theorem shlWith_writesFlagged :
    WritesFlagged (shlWith p x y s) p.vfOrder x (v.toNat * 2 % 256) (v.toNat / 128) s := by
  subst hv
  exact writeWithFlag_writesFlagged _ x s (shiftLeftByte_toNat _) (shiftedOutHigh_toNat _)

end

theorem shiftOperand_of_vx {p : Params} (x y : Reg) (s : State) (h : p.shiftSource = .vx) :
    shiftOperand p.shiftSource x y s = s.getV x := by
  rw [h, shiftOperand]

theorem shiftOperand_of_vy {p : Params} (x y : Reg) (s : State) (h : p.shiftSource = .vy) :
    shiftOperand p.shiftSource x y s = s.getV y := by
  rw [h, shiftOperand]

/-! ### The obligations -/

/-- Settles O36: this hardware writes the flag last. -/
theorem addReportsCarry : Obligations.AddReportsCarry :=
  fun x y s => (addWith_writesFlagged Config.params x y s).flagLast_ite

/-- Settles O37: SUBN is SUB with the operands exchanged. -/
theorem subtractReportsNoBorrow : Obligations.SubtractReportsNoBorrow :=
  fun x y s => ⟨(subWith_writesFlagged Config.params x y s).flagLast_ite,
    (subnWith_writesFlagged Config.params x y s).flagLast_ite⟩

/-- Settles O38: this hardware shifts Vx and writes the flag last; with SHIFT_SOURCE = Vy only the operand differs. -/
theorem shiftsReportTheBitShiftedOut : Obligations.ShiftsReportTheBitShiftedOut := by
  refine ⟨fun x y s => ?_, fun p x y s hvy => ?_⟩
  · have hv := shiftOperand_of_vx (p := Config.params) x y s rfl
    exact ⟨(shrWith_writesFlagged hv).flagLast, (shlWith_writesFlagged hv).flagLast⟩
  · have hv := shiftOperand_of_vy x y s hvy
    exact ⟨shrWith_writesFlagged hv, shlWith_writesFlagged hv⟩

/-- Settles O39: each of the five writes its result and its flag in the order of the parameters. -/
theorem flagWriteOrder : Obligations.FlagWriteOrder := by
  intro f res flag hmem p x y s hvx
  have hv := shiftOperand_of_vx x y s hvx
  simp only [List.mem_cons, List.not_mem_nil, or_false, Prod.mk.injEq] at hmem
  obtain ⟨rfl, rfl, rfl⟩ | ⟨rfl, rfl, rfl⟩ | ⟨rfl, rfl, rfl⟩ | ⟨rfl, rfl, rfl⟩ | ⟨rfl, rfl, rfl⟩ := hmem
  · exact (addWith_writesFlagged p x y s).orders
  · exact (subWith_writesFlagged p x y s).orders
  · exact (subnWith_writesFlagged p x y s).orders
  · exact (shrWith_writesFlagged hv).orders
  · exact (shlWith_writesFlagged hv).orders

end Sys2Proof.Machine
end

section
/-! SUPPORT. Immediates and the random byte (44_immediate.md rules R81 to R84): one write, then one shared way to
advance. -/

namespace Sys2Proof.Machine

theorem randomByte_of_some {s : State} {b : Byte} (h : s.rnd = some b) : s.randomByte = b := by
  rw [State.randomByte, h, Option.getD_some]

theorem randomByte_of_none {s : State} (h : s.rnd = none) : s.randomByte = Config.freeRandom s.draws := by
  rw [State.randomByte, h, Option.getD_none]

/-- Settles O42: Vx is written with the byte of the state before the draw, and the draw uses that byte up. -/
theorem randomByteIsMasked : Obligations.RandomByteIsMasked := by
  intro x kk s
  have hframe : FrameBut [x] [.random] s ((s.drawn.setV x (s.randomByte &&& kk)).advance 2) :=
    (((FrameBut.refl [x] [.random] s).drawn (by simp)).setV (by simp)).advance
  have hx : ((s.drawn.setV x (s.randomByte &&& kk)).advance 2).getV x = s.randomByte &&& kk :=
    getV_setV_same s.drawn x _
  refine ⟨_, rfl, fun b hhost => ?_, fun hfree => ?_, rfl, rfl, advanced_of_pc_eq rfl, hframe⟩
  · rw [hx, randomByte_of_some hhost]
  · rw [hx, randomByte_of_none hfree]

/-- Settles O40: both instructions write Vx alone, the second with the truncated sum. -/
theorem immediateLoadAndAdd : Obligations.ImmediateLoadAndAdd := by
  intro x kk s
  obtain ⟨t, hexec, hx, hpc, hframe⟩ := setV_advance_ends x (addByte (s.getV x) kk) s
  have hsum : (t.getV x).toNat = ((s.getV x).toNat + kk.toNat) % 256 := by rw [hx, addByte_toNat]
  exact ⟨setV_advance_ends x kk s, t, hexec, hsum, hpc, hframe⟩

/-- Settles O41: the 12-bit address keeps its value in the 16 bits of I. -/
theorem loadIndex : Obligations.LoadIndex :=
  fun nnn s => ⟨_, rfl, zext16_toNat nnn, advanced_of_pc_eq rfl, ((FrameBut.refl [] [.index] s).setI (by simp)).advance⟩

end Sys2Proof.Machine
end

section
/-! SUPPORT. The display (45_display.md rules R85 to R88): the clear, one draw of a sprite, and the same draw again. -/

namespace Sys2Proof.Machine

/-! ### One draw -/

theorem encode_drw (x y : Reg) (n : Fin 16) :
    encode (.drw x y n) = BitVec.ofNat 16 (0xD000 + x.val * 256 + y.val * 16 + n.val) := rfl

theorem inRange_eq_false_iff {addr : Word} {k : Nat} : inRange addr k = false ↔ 4096 ≤ addr.toNat + k - 1 := by
  rw [inRange, decide_eq_false_iff_not, Nat.not_lt, Config.memSize]

theorem startCoord_of_wrap {wrap : Bool} (hwrap : wrap = true) (edge : Nat) (v : Byte) :
    startCoord wrap edge v = v.toNat % edge :=
  if_pos hwrap

theorem startCoord_of_not_wrap {wrap : Bool} (hwrap : wrap = false) (edge : Nat) (v : Byte) :
    startCoord wrap edge v = v.toNat :=
  if_neg (by simp [hwrap])

/-- What a draw that raises no fault does, at any parameters. -/
def DrwCompletes (p : Params) (x y : Reg) (n : Fin 16) (px0 py0 : Nat) (s : State) : Prop :=
  ∃ t, drwWith p x y n s = .next t ∧ DrawEffect px0 py0 n.val s t ∧ Advanced 2 s t ∧ FrameBut [VF] [.display] s t

section
variable {p : Params} {x y : Reg} {n : Fin 16} {s : State}

theorem drwWith_completes (hfits : n.val = 0 ∨ s.I.toNat + n.val - 1 < 4096) :
    DrwCompletes p x y n (startCoord p.drawStartWrap 64 (s.getV x)) (startCoord p.drawStartWrap 32 (s.getV y)) s := by
  have hguard : ¬(n.val > 0 ∧ inRange s.I n.val = false) := by
    rw [inRange_eq_false_iff]
    omega
  exact ⟨_, if_neg hguard, drawSprite_effect _ _ n.val s, advanced_of_pc_eq rfl,
    ((FrameBut.refl [VF] [.display] s).drawSprite (by simp) (by simp)).advance⟩

theorem drwWith_faults (hpos : n.val > 0) (hout : s.I.toNat + n.val - 1 ≥ 4096) :
    drwWith p x y n s = .next (haltedWith .memoryRangeIndex (some (encode (.drw x y n))) (.address s.I) s) := by
  have hguard : n.val > 0 ∧ inRange s.I n.val = false :=
    ⟨hpos, inRange_eq_false_iff.mpr hout⟩
  rw [drwWith, if_pos hguard, raiseFault_eq]

/-- This hardware's DRAW_START_WRAP is off. -/
theorem exec_drw_completes (hfits : n.val = 0 ∨ s.I.toNat + n.val - 1 < 4096) :
    DrwCompletes Config.params x y n (s.getV x).toNat (s.getV y).toNat s := by
  have hwrap : Config.params.drawStartWrap = false := rfl
  have h := drwWith_completes (p := Config.params) (x := x) (y := y) hfits
  rwa [startCoord_of_not_wrap hwrap, startCoord_of_not_wrap hwrap] at h

end

/-- Settles O44: the sprite's range decides between the draw and the fault, and DRAW_START_WRAP only moves the draw's
start coordinates. -/
theorem drawFlipsTheSpritesPixels : Obligations.DrawFlipsTheSpritesPixels := by
  refine ⟨fun x y n s => ⟨exec_drw_completes, fun hpos hout => ?_⟩, fun p x y n s hwrap hfits => ?_⟩
  · rw [← encode_drw]
    exact drwWith_faults hpos hout
  · have h := drwWith_completes (p := p) (x := x) (y := y) hfits
    rwa [startCoord_of_wrap hwrap, startCoord_of_wrap hwrap] at h

/-! ### The same draw again -/

/-- A sprite is read from memory at I alone. -/
theorem spriteHits_congr {s t : State} (hI : t.I = s.I) (hmem : ∀ a, t.readByte a = s.readByte a)
    (px0 py0 n X Y : Nat) : SpriteHits t px0 py0 n X Y ↔ SpriteHits s px0 py0 n X Y := by
  simp only [SpriteHits, hI, hmem]

/-- VF after a draw is 1 exactly with a collision. -/
theorem DrawEffect.getV_VF_eq_one_iff {px0 py0 n : Nat} {s t : State} (h : DrawEffect px0 py0 n s t) :
    t.getV VF = 1 ↔ ∃ (X : Fin 64) (Y : Fin 32), SpriteHits s px0 py0 n X Y ∧ s.pixel X Y = true := by
  obtain ⟨-, -, hone, hzero⟩ := h
  refine ⟨fun hVF => ?_, hone⟩
  by_contra hnone
  have hdark (X : Fin 64) (Y : Fin 32) (hhit : SpriteHits s px0 py0 n X Y) : s.pixel X Y = false :=
    Bool.eq_false_iff.mpr fun hlit => hnone ⟨X, Y, hhit, hlit⟩
  rw [hzero hdark] at hVF
  exact absurd hVF (by decide)

section
variable {px0 py0 n : Nat} {s t u : State} (hfirst : DrawEffect px0 py0 n s t) (hsecond : DrawEffect px0 py0 n t u)
  (hsame : ∀ X Y, SpriteHits t px0 py0 n X Y ↔ SpriteHits s px0 py0 n X Y)
include hfirst hsecond hsame

/-- A pixel is flipped by both draws or by neither. -/
theorem DrawEffect.pixel_twice (X : Fin 64) (Y : Fin 32) : u.pixel X Y = s.pixel X Y := by
  obtain ⟨hflip, hkeep, -, -⟩ := hfirst
  obtain ⟨hflip', hkeep', -, -⟩ := hsecond
  by_cases hhit : SpriteHits s px0 py0 n X Y
  · rw [hflip' X Y ((hsame X Y).mpr hhit), hflip X Y hhit, Bool.not_not]
  · rw [hkeep' X Y (mt (hsame X Y).mp hhit), hkeep X Y hhit]

/-- The second draw collides where the first lit a pixel. -/
theorem DrawEffect.getV_VF_twice :
    u.getV VF = 1 ↔ ∃ (X : Fin 64) (Y : Fin 32), SpriteHits s px0 py0 n X Y ∧ s.pixel X Y = false := by
  obtain ⟨hflip, -, -, -⟩ := hfirst
  rw [hsecond.getV_VF_eq_one_iff]
  refine exists_congr fun X => exists_congr fun Y => ?_
  rw [hsame]
  refine and_congr_right fun hhit => ?_
  rw [hflip X Y hhit, Bool.not_eq_true']

end

/-- Settles O45: the first draw leaves I, memory and the start coordinates alone, so that the second draws the same
sprite at the same place. -/
theorem drawingTwiceRestoresTheDisplay : Obligations.DrawingTwiceRestoresTheDisplay := by
  intro x y n s hx hy hfits
  obtain ⟨t, hexec, hfirst, -, hregs, hparts⟩ := exec_drw_completes (x := x) (y := y) hfits
  have hI : t.I = s.I := hparts .index (by simp)
  have hmem : ∀ a, t.readByte a = s.readByte a := hparts .memory (by simp)
  obtain ⟨u, hexec', hsecond, -, -⟩ := exec_drw_completes (x := x) (y := y) (s := t) (hI.symm ▸ hfits)
  rw [hregs x (by simpa using hx), hregs y (by simpa using hy)] at hsecond
  have hsame := spriteHits_congr hI hmem (s.getV x).toNat (s.getV y).toNat n.val
  exact ⟨t, u, hexec, hexec', hfirst.pixel_twice hsecond hsame, hfirst.getV_VF_twice hsecond hsame⟩

/-! ### The clear -/

/-- Settles O43: every pixel of the cleared framebuffer is unlit. -/
theorem clearTurnsEveryPixelOff : Obligations.ClearTurnsEveryPixelOff :=
  fun s => ⟨_, rfl, fbGet_fbClear, advanced_of_pc_eq rfl, ((FrameBut.refl [] [.display] s).setFb (by simp)).advance⟩

end Sys2Proof.Machine
end

section
/-! SUPPORT. The keypad (46_keypad.md rules R89 to R93): the key a skip tests, the wait, and the poll that ends it. -/

namespace Sys2Proof.Machine

/-! ### The key lookup (rule R89) -/

section
variable {policy : KeyRangePolicy} {keys : KeySample} {v : Byte}

theorem pressed_of_lt (h : v.toNat < 16) : pressed policy keys v = some (keys.getLsbD v.toNat) :=
  if_pos h

theorem pressed_of_fault (h : v.toNat ≥ 16) (hp : policy = .fault) : pressed policy keys v = none := by
  subst hp
  exact if_neg (Nat.not_lt.mpr h)

theorem pressed_of_notPressed (h : v.toNat ≥ 16) (hp : policy = .notPressed) :
    pressed policy keys v = some false := by
  subst hp
  exact if_neg (Nat.not_lt.mpr h)

theorem and_0F_toNat (v : Byte) : (v &&& 0x0F).toNat = v.toNat % 16 :=
  Nat.and_two_pow_sub_one_eq_mod v.toNat 4

theorem pressed_of_lowNibble (h : v.toNat ≥ 16) (hp : policy = .lowNibble) :
    pressed policy keys v = some (keys.getLsbD (v.toNat % 16)) := by
  subst hp
  rw [← and_0F_toNat]
  exact if_neg (Nat.not_lt.mpr h)

end

/-! ### The skips (rules R90 and R91) -/

section
variable {p : Params} {x : Reg} {s : State} {b : Bool}

/-- Where the lookup answers, SKP skips on its answer and SKNP on the opposite. -/
theorem keySkips_of_pressed_eq_some (h : pressed p.keyRangePolicy s.keys (s.getV x) = some b) :
    (∃ t, skpWith p x s = .next t ∧ Advanced (if b then 4 else 2) s t ∧ FrameBut [] [] s t) ∧
    (∃ t, sknpWith p x s = .next t ∧ Advanced (if b then 2 else 4) s t ∧ FrameBut [] [] s t) := by
  simp only [skpWith, sknpWith, h]
  refine ⟨skipIf_advances b s, ?_⟩
  have hnot : (if b then 2 else 4) = if !b then 4 else 2 := by cases b <;> rfl
  rw [hnot]
  exact skipIf_advances (!b) s

theorem skpWith_of_pressed_eq_none (h : pressed p.keyRangePolicy s.keys (s.getV x) = none) :
    skpWith p x s = .next (haltedWith .keyRangeError (some (encode (.skp x))) (.key (s.getV x)) s) := by
  simp only [skpWith, h, raiseFault_eq]

theorem sknpWith_of_pressed_eq_none (h : pressed p.keyRangePolicy s.keys (s.getV x) = none) :
    sknpWith p x s = .next (haltedWith .keyRangeError (some (encode (.sknp x))) (.key (s.getV x)) s) := by
  simp only [sknpWith, h, raiseFault_eq]

end

theorem encode_skp (x : Reg) : encode (.skp x) = BitVec.ofNat 16 (0xE09E + x.val * 256) := by
  rw [encode, wordXKK, Nat.add_right_comm]

theorem encode_sknp (x : Reg) : encode (.sknp x) = BitVec.ofNat 16 (0xE0A1 + x.val * 256) := by
  rw [encode, wordXKK, Nat.add_right_comm]

/-- Settles O46: the lookup answers or faults by the key number and the policy, which is Fault on this hardware. -/
theorem keySkips : Obligations.KeySkips := by
  refine ⟨fun x s b hlt hb => ?_, fun x s hge => ?_, fun p x s b hge hpolicy => ?_⟩
  · exact keySkips_of_pressed_eq_some (p := Config.params) (hb ▸ pressed_of_lt hlt)
  · have hnone : pressed Config.params.keyRangePolicy s.keys (s.getV x) = none := pressed_of_fault hge rfl
    rw [← encode_skp, ← encode_sknp]
    exact ⟨skpWith_of_pressed_eq_none hnone, sknpWith_of_pressed_eq_none hnone⟩
  · obtain ⟨hp, rfl⟩ | ⟨hp, rfl⟩ := hpolicy
    · exact keySkips_of_pressed_eq_some (pressed_of_lowNibble hge hp)
    · exact keySkips_of_pressed_eq_some (pressed_of_notPressed hge hp)

/-! ### The wait (rule R92) -/

/-- Settles O47: only the mode is written. -/
theorem keyWaitHoldsPc : Obligations.KeyWaitHoldsPc :=
  fun x s => ⟨s.setMode (.waiting x s.keys), rfl, rfl, rfl, (FrameBut.refl [] [.mode] s).setMode (by simp)⟩

/-! ### The poll (rule R93) -/

/-- The poll ends on `k` exactly where `k` is newly pressed and no lower key is. -/
theorem lowestKey_freshKeys_eq_some_iff (keys prev : KeySample) (k : Reg) :
    lowestKey (freshKeys keys prev) = some k ↔ (keys.getLsbD k.val = true ∧ prev.getLsbD k.val = false) ∧
      ∀ j : Reg, j < k → ¬(keys.getLsbD j.val = true ∧ prev.getLsbD j.val = false) := by
  simp only [lowestKey_eq_some, keyDown_freshKeys]

theorem lowestKey_freshKeys_eq_none_iff (keys prev : KeySample) :
    lowestKey (freshKeys keys prev) = none ↔
      ∀ k : Reg, ¬(keys.getLsbD k.val = true ∧ prev.getLsbD k.val = false) := by
  simp only [lowestKey_eq_none, keyDown_freshKeys]

theorem FrameBut.setHost {regs : List Reg} {parts : List Part} {s t : State} {keys : KeySample} {script : List Input}
    {taken : Nat} (h : FrameBut regs parts s t) (hh : .host ∈ parts) :
    FrameBut regs parts s { t with keys := keys, script := script, taken := taken } := by
  refine ⟨h.1, fun p hp => ?_⟩
  cases p with
  | host => exact absurd hh hp
  | _ => exact h.2 _ hp

section
variable {s u : State} {keys : KeySample} {rnd : Option Byte} (hnext : NextInput s (.cycle keys rnd) u)
include hnext

/-- In Waiting mode a cycle of the host is a poll with its sample; the random byte is not used. -/
theorem NextInput.step_eq_poll {x : Reg} {prev : KeySample} (hm : s.mode = .waiting x prev) :
    step s = .next (poll x prev { u with keys := keys }) := by
  obtain ⟨script, taken, rfl⟩ := hnext.eq
  simp only [hnext.step_eq, applyInput, cycleStep, hm]

/-- Taking a sample changes the host's fields alone. -/
theorem NextInput.sample_frame :
    { u with keys := keys }.pc = s.pc ∧ FrameBut [] [.host] s { u with keys := keys } := by
  obtain ⟨script, taken, rfl⟩ := hnext.eq
  exact ⟨rfl, (FrameBut.refl [] [.host] s).setHost (by simp)⟩

end

theorem Advanced.of_pc_eq {k : Nat} {s t u : State} (h : Advanced k u t) (hpc : u.pc = s.pc) : Advanced k s t := by
  rw [Advanced, ← hpc]
  exact h

/-- What a poll that ends the wait on the key `k` does. -/
theorem poll_ends {x : Reg} {prev : KeySample} {k : Reg} {s : State}
    (h : lowestKey (freshKeys s.keys prev) = some k) :
    ((poll x prev s).getV x).toNat = k.val ∧ (poll x prev s).mode = .running ∧ Advanced 2 s (poll x prev s) ∧
      FrameBut [x] [.mode] s (poll x prev s) := by
  rw [poll, h]
  have hframe := (FrameBut.refl [x] [.mode] s).setV (r := x) (v := BitVec.ofNat 8 k.val) (by simp)
  refine ⟨?_, rfl, advanced_of_pc_eq rfl, (hframe.setMode (by simp)).advance⟩
  rw [getV_advance, getV_setMode, getV_setV_same, BitVec.toNat_ofNat, Nat.mod_eq_of_lt (by omega)]

/-- A poll that finds no key newly pressed remembers the sample. -/
theorem poll_waits {x : Reg} {prev : KeySample} {s : State} (h : lowestKey (freshKeys s.keys prev) = none) :
    poll x prev s = s.setMode (.waiting x s.keys) := by
  rw [poll, h]

/-- Settles O48: the step is a poll with the sample taken, and taking the sample changes the host's fields alone. -/
theorem pollEndsOnTheLowestFreshKey : Obligations.PollEndsOnTheLowestFreshKey := by
  intro s u x prev keys rnd hm hnext
  obtain ⟨hpc, hsample⟩ := hnext.sample_frame
  rw [hnext.step_eq_poll hm]
  refine ⟨fun k hfresh hlowest => ?_, fun hnone => ?_⟩
  · have hkey := (lowestKey_freshKeys_eq_some_iff keys prev k).mpr ⟨hfresh, hlowest⟩
    obtain ⟨hx, hrunning, hadvanced, hframe⟩ := poll_ends (x := x) (s := { u with keys := keys }) hkey
    have hstep : FrameBut [x] [.mode, .host] s (poll x prev { u with keys := keys }) :=
      (hsample.mono (by simp) (by simp)).trans (hframe.mono (by simp) (by simp))
    exact ⟨_, rfl, hx, hrunning, hadvanced.of_pc_eq hpc, hstep, hframe⟩
  · have hkey := (lowestKey_freshKeys_eq_none_iff keys prev).mpr hnone
    exact congrArg _ (poll_waits (s := { u with keys := keys }) hkey)

end Sys2Proof.Machine
end

section
/-! SUPPORT. The timer instructions (47_timers.md rules R94 to R96): a timer read into a register, or a register written
to a timer. -/

namespace Sys2Proof.Machine

/-- Settles O49: each of the three instructions is one write and an advance. -/
theorem timerInstructions : Obligations.TimerInstructions := by
  refine fun x s => ⟨setV_advance_ends x s.DT s, ?_, ?_⟩
  · have hframe := (FrameBut.refl [] [.delayTimer] s).setDT (v := s.getV x) (by simp)
    exact ⟨_, rfl, setDT_DT s (s.getV x), advanced_of_pc_eq rfl, hframe.advance⟩
  · have hframe := (FrameBut.refl [] [.soundTimer] s).setST (v := s.getV x) (by simp)
    exact ⟨_, rfl, setST_ST s (s.getV x), advanced_of_pc_eq rfl, hframe.advance⟩

end Sys2Proof.Machine
end

section
/-! SUPPORT. Index and memory block operations (48_memory_block.md rules R97 to R101): the two writes of I, and the
blocks at I, whose range check decides between the access and the fault. -/

namespace Sys2Proof.Machine

/-! ### The index register (rules R97 and R98) -/

/-- A meaning that writes I and advances. -/
theorem setI_advance_ends (a : Word) (s : State) :
    ((s.setI a).advance 2).I = a ∧ Advanced 2 s ((s.setI a).advance 2) ∧
      FrameBut [] [.index] s ((s.setI a).advance 2) :=
  ⟨rfl, advanced_of_pc_eq rfl, ((FrameBut.refl [] [.index] s).setI (by simp)).advance⟩

/-- Settles O53: I is the sum kept to 16 bits, and no register is written. -/
theorem addToIndexWraps : Obligations.AddToIndexWraps := by
  intro x s
  obtain ⟨hI, hpc, hframe⟩ := setI_advance_ends (trunc16 (s.I.toNat + (s.getV x).toNat)) s
  refine ⟨_, rfl, ?_, hpc, hframe⟩
  rw [hI, trunc16, BitVec.toNat_ofNat]

/-- FONT_BASE is 0 on this hardware, and the last glyph starts below 2^16. -/
theorem glyphAddress_toNat (v : Byte) : (glyphAddress Config.params.fontBase v).toNat = 5 * (v.toNat % 16) := by
  have hbase : Config.params.fontBase = 0 := rfl
  rw [glyphAddress, hbase, Nat.zero_add, Config.glyphBytes, and_0F_toNat, trunc16, BitVec.toNat_ofNat,
    Nat.mod_eq_of_lt (by omega)]

/-- Settles O54: I is the address of the glyph. -/
theorem glyphAddressOfLowNibble : Obligations.GlyphAddressOfLowNibble := by
  intro x s
  obtain ⟨hI, hpc, hframe⟩ := setI_advance_ends (glyphAddress Config.params.fontBase (s.getV x)) s
  refine ⟨_, rfl, ?_, hpc, hframe⟩
  rw [hI, glyphAddress_toNat]

/-! ### The range check and the word of a block instruction -/

theorem inRange_of_lt {addr : Word} {k : Nat} (h : addr.toNat + k < 4096) : inRange addr (k + 1) = true :=
  inRange_iff.mpr h

theorem not_inRange_of_le {addr : Word} {k : Nat} (h : 4096 ≤ addr.toNat + k) : ¬ inRange addr (k + 1) = true :=
  fun hin => Nat.not_lt.mpr h (inRange_iff.mp hin)

theorem wordXKK_eq (g x k : Nat) : wordXKK g x k = BitVec.ofNat 16 (g * 4096 + k + x * 256) := by
  rw [wordXKK, Nat.add_right_comm]

theorem encode_ldB (x : Reg) : encode (.ldB x) = BitVec.ofNat 16 (0xF033 + x.val * 256) := wordXKK_eq 0xF x 0x33

theorem encode_stRegs (x : Reg) : encode (.stRegs x) = BitVec.ofNat 16 (0xF055 + x.val * 256) := wordXKK_eq 0xF x 0x55

theorem encode_ldRegs (x : Reg) : encode (.ldRegs x) = BitVec.ofNat 16 (0xF065 + x.val * 256) := wordXKK_eq 0xF x 0x65

/-! ### A block written at I -/

section
variable {m : Memory} (hwf : Memory.wf m = true) {a : Nat} {vs : List Byte} (ha : a + vs.length ≤ Config.memSize)
include hwf ha

theorem memRead_memWriteBlock_inside {k : Nat} (hk : k < vs.length) :
    memRead (memWriteBlock m a vs) (a + k) = vs.getD k 0 := by
  rw [memRead_memWriteBlock hwf vs ha, if_pos (by omega), Nat.add_sub_cancel_left]

theorem memRead_memWriteBlock_outside {b : Nat} (hb : b < a ∨ a + vs.length ≤ b) :
    memRead (memWriteBlock m a vs) b = memRead m b := by
  rw [memRead_memWriteBlock hwf vs ha, if_neg (by omega)]

end

/-- A meaning that writes a block of memory and advances. -/
theorem setMem_advance_ends (m : Memory) (s : State) :
    Advanced 2 s ((s.setMem m).advance 2) ∧ FrameBut [] [.memory] s ((s.setMem m).advance 2) :=
  ⟨advanced_of_pc_eq rfl, ((FrameBut.refl [] [.memory] s).setMem (by simp)).advance⟩

/-! ### The decimal digits (rule R99) -/

theorem trunc8_toNat_of_lt {n : Nat} (h : n < 256) : (trunc8 n).toNat = n := by
  rw [trunc8, BitVec.toNat_ofNat, Nat.mod_eq_of_lt h]

/-- What Fx33 leaves: the digits of Vx stored from I on, and pc advanced. -/
def State.storedDigits (s : State) (x : Reg) : State :=
  (s.setMem (memWriteBlock s.mem s.I.toNat (bcdDigits (s.getV x)))).advance 2

section
variable {s : State} {x : Reg}

theorem exec_ldB_inRange (h : s.I.toNat + 2 < 4096) : exec (.ldB x) s = .next (s.storedDigits x) :=
  if_pos (inRange_of_lt h)

/-- Digit `k`, the number `n`, is stored at I + k. -/
theorem readByte_storedDigits {k n : Nat} (hwf : Memory.wf s.mem = true) (hrange : s.I.toNat + 2 < 4096) (hk : k < 3)
    (hdigit : (bcdDigits (s.getV x)).getD k 0 = trunc8 n) (hn : n < 256) :
    ((s.storedDigits x).readByte (s.I.toNat + k)).toNat = n := by
  have hfits : s.I.toNat + (bcdDigits (s.getV x)).length ≤ Config.memSize := hrange
  rw [State.storedDigits, readByte_advance, readByte_setMem, memRead_memWriteBlock_inside hwf hfits hk, hdigit,
    trunc8_toNat_of_lt hn]

theorem readByte_storedDigits_outside {a : Nat} (hwf : Memory.wf s.mem = true) (hrange : s.I.toNat + 2 < 4096)
    (ha : a < s.I.toNat ∨ a > s.I.toNat + 2) : (s.storedDigits x).readByte a = s.readByte a := by
  have hfits : s.I.toNat + (bcdDigits (s.getV x)).length ≤ Config.memSize := hrange
  exact memRead_memWriteBlock_outside hwf hfits ha

end

/-- Settles O55: the three digits, each of them less than 256, are a block written at I. -/
theorem bcdStoresThreeDigits : Obligations.BcdStoresThreeDigits := by
  refine fun x s hwf => ⟨fun hin => ?_, fun hout => ?_⟩
  · have hv := (s.getV x).isLt
    exact ⟨s.storedDigits x, exec_ldB_inRange hin,
      readByte_storedDigits hwf hin (k := 0) (by omega) rfl (by omega),
      readByte_storedDigits hwf hin (k := 1) (by omega) rfl (by omega),
      readByte_storedDigits hwf hin (k := 2) (by omega) rfl (by omega),
      fun _ => readByte_storedDigits_outside hwf hin, setMem_advance_ends _ s⟩
  · rw [← encode_ldB]
    exact if_neg (not_inRange_of_le hout)

/-! ### Storing V0 to Vx (rule R100) -/

theorem readByte_storedRegs_outside {s : State} {x : Reg} {a : Nat} (hwf : Memory.wf s.mem = true)
    (hrange : s.I.toNat + x.val < 4096) (ha : a < s.I.toNat ∨ a > s.I.toNat + x.val) :
    (s.storedRegs x).readByte a = s.readByte a := by
  have hlen := length_blockRegs s x
  have hfits : s.I.toNat + (blockRegs s x).length ≤ Config.memSize := hlen ▸ hrange
  exact memRead_memWriteBlock_outside hwf hfits (by omega)

/-- With BLOCK_I_INCREMENT the store differs in I alone. -/
theorem stRegsWith_increment {p : Params} {s : State} {x : Reg} (hp : p.blockIIncrement = true)
    (hrange : s.I.toNat + x.val < 4096) :
    stRegsWith p x s = .next { s.storedRegs x with I := BitVec.ofNat 16 (s.I.toNat + x.val + 1) } := by
  rw [stRegsWith, if_pos (inRange_of_lt hrange), hp]
  rfl

/-- Settles O56: the registers are a block written at I, register `k` at I + k. -/
theorem blockStoreWritesEachRegister : Obligations.BlockStoreWritesEachRegister := by
  refine ⟨fun x s hwf => ⟨fun hin => ?_, fun hout => ?_⟩, fun p x s hp hin => ?_⟩
  · exact ⟨s.storedRegs x, exec_stRegs_inRange hin, fun k hk => readByte_storedRegs hwf hin hk,
      fun a ha => readByte_storedRegs_outside hwf hin ha, setMem_advance_ends _ s⟩
  · rw [← encode_stRegs]
    exact if_neg (not_inRange_of_le hout)
  · exact ⟨s.storedRegs x, _, exec_stRegs_inRange hin, stRegsWith_increment hp hin, rfl⟩

/-! ### Loading V0 to Vx (rule R101) -/

/-- What Fx65 leaves: V0 to Vx loaded from I on, and pc advanced. -/
def State.loadedRegs (s : State) (x : Reg) : State :=
  (s.setRegFile (setRegs s.V 0 (memReadBlock s.mem s.I.toNat (x.val + 1)))).advance 2

section
variable {s : State} {x : Reg}

theorem exec_ldRegs_inRange (h : s.I.toNat + x.val < 4096) : exec (.ldRegs x) s = .next (s.loadedRegs x) :=
  if_pos (inRange_of_lt h)

theorem getV_loadedRegs (k : Reg) :
    (s.loadedRegs x).getV k = if k ≤ x then s.readByte (s.I.toNat + k.val) else s.getV k := by
  have hread : (s.loadedRegs x).getV k = (setRegs s.V 0 (memReadBlock s.mem s.I.toNat (x.val + 1)))[k] := rfl
  rw [hread, getElem_setRegs, length_memReadBlock]
  by_cases hk : k ≤ x
  · have hlt : k.val < x.val + 1 := Nat.lt_succ_of_le hk
    rw [if_pos hk, if_pos (by omega), Nat.sub_zero, getD_memReadBlock _ _ _ _ hlt]
    rfl
  · have hge : ¬ k.val < x.val + 1 := fun hlt => hk (Nat.le_of_lt_succ hlt)
    rw [if_neg hk, if_neg (by omega)]
    rfl

/-- The load changes no register after Vx and nothing else. -/
theorem loadedRegs_frame : FrameBut ((List.finRange 16).filter (fun k => k ≤ x)) [] s (s.loadedRegs x) := by
  refine ((FrameBut.refl _ [] s).setRegs fun r hr => ?_).advance
  rw [length_memReadBlock] at hr
  simpa using Nat.le_of_lt_succ hr

/-- With BLOCK_I_INCREMENT the load differs in I alone. -/
theorem ldRegsWith_increment {p : Params} (hp : p.blockIIncrement = true) (hrange : s.I.toNat + x.val < 4096) :
    ldRegsWith p x s = .next { s.loadedRegs x with I := BitVec.ofNat 16 (s.I.toNat + x.val + 1) } := by
  rw [ldRegsWith, if_pos (inRange_of_lt hrange), hp]
  rfl

end

/-- Settles O57: each register up to Vx gets its byte of the block, and no later one is written. -/
theorem blockLoadReadsEachRegister : Obligations.BlockLoadReadsEachRegister := by
  refine ⟨fun x s => ⟨fun hin => ?_, fun hout => ?_⟩, fun p x s hp hin => ?_⟩
  · exact ⟨s.loadedRegs x, exec_ldRegs_inRange hin, fun k hk => (getV_loadedRegs k).trans (if_pos hk),
      fun k hk => (getV_loadedRegs k).trans (if_neg (Fin.not_le.mpr hk)), advanced_of_pc_eq rfl, loadedRegs_frame⟩
  · rw [← encode_ldRegs]
    exact if_neg (not_inRange_of_le hout)
  · exact ⟨s.loadedRegs x, _, exec_ldRegs_inRange hin, ldRegsWith_increment hp hin, rfl⟩

end Sys2Proof.Machine
end

section
/-! SUPPORT. Faults and the halted core (60_exceptions.md rules R102 to R106): which fault halts a core step, in what
state, and what an input of the host does to a halted core. -/

namespace Sys2Proof.Machine

/-! ### The fault of a core step (rules R103, R104 and R106) -/

/-- The fault that a core step in Running mode at `s` may raise: the fetch's, else the decode's, else the
instruction's own. -/
def FirstFault (s : State) (kind : FaultKind) : Prop :=
  (s.pc.toNat + 1 ≥ 4096 ∧ kind = .memoryRangeFetch) ∨
  (s.pc.toNat + 1 < 4096 ∧ (∃ e, decodeWord (fetchWord s) = .error e) ∧ kind = .decodeError) ∨
  (s.pc.toNat + 1 < 4096 ∧ ∃ i, decodeWord (fetchWord s) = .ok i ∧ kind ∈ ownFaults i)

theorem haltedWith_eq_of_mode {kind : FaultKind} {word : Option Word} {detail : Detail} {s : State} {d : Diag}
    (h : (haltedWith kind word detail s).mode = .halted d) :
    haltedWith kind word detail s = { s with mode := .halted d } ∧ d.pc = s.pc ∧ d.word = word ∧ d.kind = kind := by
  cases h
  exact ⟨rfl, rfl, rfl, rfl⟩

/-- An instruction that halts a running core changes the mode alone, and raises a fault of its own with its word. -/
theorem exec_halts {i : Instr} {s t : State} {d : Diag} (hm : s.mode = .running) (h : exec i s = .next t)
    (hd : t.mode = .halted d) :
    t = { s with mode := .halted d } ∧ d.pc = s.pc ∧ d.word = some (encode i) ∧ d.kind ∈ ownFaults i := by
  obtain ⟨kind, hkind, detail, rfl⟩ | ⟨hhalt, -⟩ := exec_haltsOrCompletes i s t h
  · obtain ⟨ht, hpc, hword, rfl⟩ := haltedWith_eq_of_mode hd
    exact ⟨ht, hpc, hword, hkind⟩
  · have hs := hhalt d hd
    rw [hm] at hs
    cases hs

/-- A core step that halts a running core changes the mode alone, and raises the first fault in the order of rule
R106. -/
theorem CycleStart.halts {s u t : State} {d : Diag} (h : CycleStart s u) (hm : s.mode = .running)
    (hstep : step s = .next t) (hd : t.mode = .halted d) :
    t = { u with mode := .halted d } ∧ d.pc = s.pc ∧ FirstFault s d.kind := by
  rw [← h.pc_eq]
  by_cases hpc : s.pc.toNat + 1 < 4096
  · cases hdecode : decodeWord (fetchWord s) with
    | ok i =>
      rw [h.step_eq_exec hm hpc hdecode] at hstep
      obtain ⟨ht, hdpc, -, hkind⟩ := exec_halts (h.mode_eq.trans hm) hstep hd
      exact ⟨ht, hdpc, .inr (.inr ⟨hpc, i, hdecode, hkind⟩)⟩
    | error e =>
      rw [h.step_eq_decodeError hm hpc hdecode] at hstep
      cases hstep
      obtain ⟨ht, hdpc, -, hkind⟩ := haltedWith_eq_of_mode hd
      exact ⟨ht, hdpc, .inr (.inl ⟨hpc, ⟨e, hdecode⟩, hkind⟩)⟩
  · have hout : 4096 ≤ s.pc.toNat + 1 := Nat.not_lt.mp hpc
    rw [h.step_eq_fetchFault hm hout] at hstep
    cases hstep
    obtain ⟨ht, hdpc, -, hkind⟩ := haltedWith_eq_of_mode hd
    exact ⟨ht, hdpc, .inl ⟨hout, hkind⟩⟩

/-- Settles O9: the fault of a step is the first of the three checks'. -/
theorem faultPriority : Obligations.FaultPriority := by
  rintro s t d hm ⟨u, hu⟩ hstep hd
  obtain ⟨-, -, hfault⟩ := hu.halts hm hstep hd
  exact hfault

/-- Settles O10: an instruction and a step halt in the state they began in, but for the mode. -/
theorem faultsArePrecise : Obligations.FaultsArePrecise := by
  refine ⟨fun i s t d hm h hd => ?_, fun s u t d hm hu hstep hd => ?_⟩
  · obtain ⟨ht, hpc, hword, -⟩ := exec_halts hm h hd
    exact ⟨ht, hpc, hword⟩
  · obtain ⟨ht, hpc, -⟩ := hu.halts hm hstep hd
    exact ⟨ht, hpc⟩

/-! ### Reset (rules R26, R105 and R121) -/

/-- On this hardware a reset gives the reset values in any state. -/
theorem resetWith_hasResetValues (now : Nat) (s : State) : HasResetValues now (resetWith Config.params now s) where
  regs r    := by simp [State.getV, resetWith]
  index     := rfl
  pc        := rfl
  depth     := rfl
  entries j := by simp [resetWith]
  delay     := rfl
  sound     := rfl
  dark      := fbGet_fbClear
  mode      := rfl
  time      := rfl

/-- A step that takes a reset of the host. -/
theorem NextInput.step_eq_reset {s u : State} {now : Nat} (h : NextInput s (.reset now) u) :
    step s = .next (resetWith Config.params now u) :=
  h.step_eq

theorem NextInput.mode_eq {s u : State} {inp : Input} (h : NextInput s inp u) : u.mode = s.mode := by
  obtain ⟨_, _, rfl⟩ := h.eq
  rfl

/-! ### The halted core (rule R105) -/

theorem hostTick_of_not_enabled {p : Params} {s : State} (h : tickEnabled p s.mode = false) : hostTick p s = s :=
  if_neg (by simp [h])

theorem timebase_of_not_enabled {p : Params} {s : State} (h : tickEnabled p s.mode = false) (now : Nat) :
    timebase p now s = { s with tLast := now } :=
  if_neg (by simp [h])

/-- This hardware counts its timers down in Running only (TIMERS_DURING_WAIT is Frozen). -/
theorem tickEnabled_eq_false {m : Mode} (h : m ≠ .running) : tickEnabled Config.params m = false := by
  cases m with
  | running => exact absurd rfl h
  | waiting _ _ => rfl
  | halted _ => rfl

section
variable {s u : State} (hm : s.mode ≠ .running)
include hm

/-- A tick of the host in a mode that does not enable it. -/
theorem NextInput.step_eq_of_tick_not_running (h : NextInput s .tick u) : step s = .next u := by
  have hoff := tickEnabled_eq_false (h.mode_eq ▸ hm)
  rw [h.step_eq, applyInput, hostTick_of_not_enabled hoff]

/-- The clock in a mode that does not enable ticks. -/
theorem NextInput.step_eq_of_clock_not_running {now : Nat} (h : NextInput s (.clock now) u) :
    step s = .next { u with tLast := now } := by
  have hoff := tickEnabled_eq_false (h.mode_eq ▸ hm)
  rw [h.step_eq, applyInput, timebase_of_not_enabled hoff]

end

/-- Settles O11: each input of the host in Halted mode, and none. -/
theorem haltedUntilReset : Obligations.HaltedUntilReset := by
  intro s d hm
  have hne : s.mode ≠ .running := by simp [hm]
  refine ⟨fun hnone => ?_, fun keys rnd u h => ?_, fun u h => h.step_eq_of_tick_not_running hne,
    fun now u h => h.step_eq_of_clock_not_running hne,
    fun now u h => ⟨_, h.step_eq_reset, resetWith_hasResetValues now u, rfl⟩⟩
  · rw [hnone.step_eq, unattendedStep, hm]
  · rw [h.step_eq, applyInput, cycleStep, h.mode_eq, hm]

end Sys2Proof.Machine
end

section
/-! SUPPORT. Ticks and the wall-clock timebase (60_exceptions.md rules R109 to R111). -/

namespace Sys2Proof.Machine

/-! ### One tick (rule R109) -/

/-- What a tick does. -/
theorem tick_effect (s : State) :
    (tick s).DT.toNat = s.DT.toNat - 1 ∧ (tick s).ST.toNat = s.ST.toNat - 1 ∧ (tick s).pc = s.pc ∧
      FrameBut [] [.delayTimer, .soundTimer] s (tick s) :=
  ⟨tick_DT_toNat s, tick_ST_toNat s, iterate_tick_frame 1 s⟩

theorem hostTick_of_enabled {p : Params} {s : State} (h : tickEnabled p s.mode = true) : hostTick p s = tick s :=
  if_pos h

theorem NextInput.tickEnabled_eq_true {s u : State} {inp : Input} (h : NextInput s inp u) (hm : s.mode = .running) :
    tickEnabled Config.params u.mode = true := by
  rw [h.mode_eq, hm]
  rfl

/-- A tick of the host in Running. -/
theorem NextInput.step_eq_tick {s u : State} (h : NextInput s .tick u) (hm : s.mode = .running) :
    step s = .next (tick u) := by
  rw [h.step_eq, applyInput, hostTick_of_enabled (h.tickEnabled_eq_true hm)]

/-- Taking an input changes the host's fields alone. -/
theorem NextInput.frame {s u : State} {inp : Input} (h : NextInput s inp u) : u.pc = s.pc ∧ FrameBut [] [.host] s u := by
  obtain ⟨_, _, rfl⟩ := h.eq
  exact ⟨rfl, (FrameBut.refl [] [.host] s).setHost (by simp)⟩

/-- Settles O50: a tick counts down where the mode and TIMERS_DURING_WAIT enable it. -/
theorem tickCountsBothTimersDown : Obligations.TickCountsBothTimersDown := by
  refine ⟨fun s u h => ⟨fun hm => ?_, fun hm => h.step_eq_of_tick_not_running hm⟩, fun p s x prev hm hp => ?_⟩
  · obtain ⟨hDT, hST, hpc, hframe⟩ := tick_effect u
    obtain ⟨hpc', hinput⟩ := h.frame
    have hstep : FrameBut [] [.delayTimer, .soundTimer, .host] s (tick u) :=
      (hinput.mono (by simp) (by simp)).trans (hframe.mono (by simp) (by simp))
    obtain ⟨_, _, rfl⟩ := h.eq
    exact ⟨_, h.step_eq_tick hm, hDT, hST, hpc.trans hpc', hstep, hframe⟩
  · have hon : tickEnabled p s.mode = true := by simp [hm, tickEnabled, hp]
    rw [hostTick_of_enabled hon]
    exact tick_effect s

/-! ### A run of ticks (rule R111) -/

/-- `n` ticks at the head of the script of a running core take the timers `n` down, and are gone from the script. -/
theorem run_ticks (n : Nat) {s : State} {rest : List Input} (hm : s.mode = .running)
    (hscript : s.script = List.replicate n .tick ++ rest) :
    ∃ dt st : Byte, Host.Core.run Sys2Proof.core n s = .next { s with DT := dt, ST := st, script := rest } ∧
      dt.toNat = s.DT.toNat - n ∧ st.toNat = s.ST.toNat - n := by
  induction n generalizing s with
  | zero =>
    obtain rfl : s.script = rest := hscript
    exact ⟨s.DT, s.ST, rfl, rfl, rfl⟩
  | succ n ih =>
    have hnext : NextInput s .tick { s with script := List.replicate n .tick ++ rest } := .inl ⟨_, hscript, rfl⟩
    obtain ⟨dt, st, hrun, hDT, hST⟩ := ih (s := tick { s with script := List.replicate n .tick ++ rest }) hm rfl
    refine ⟨dt, st, (run_succ (M := Sys2Proof.core) (hnext.step_eq_tick hm) n).trans hrun, ?_, ?_⟩
    · rw [hDT, tick_DT_toNat, Nat.sub_sub, Nat.add_comm]
    · rw [hST, tick_ST_toNat, Nat.sub_sub, Nat.add_comm]

/-- Settles O51: a run of ticks writes the timers, and takes the ticks from the script. -/
theorem ticksReachZeroAndStay : Obligations.TicksReachZeroAndStay := by
  intro n s rest hm hscript
  obtain ⟨dt, st, hrun, hDT, hST⟩ := run_ticks n hm hscript
  exact ⟨_, hrun, hDT, hST, hm, rfl⟩

/-! ### The timebase (rule R110) -/

/-- The clock in Running. -/
theorem NextInput.step_eq_catchUp {s u : State} {now : Nat} (h : NextInput s (.clock now) u)
    (hm : s.mode = .running) : step s = .next (catchUp ((now - u.tLast) / Config.tickInterval) u) := by
  rw [h.step_eq, applyInput, timebase, if_pos (h.tickEnabled_eq_true hm)]

/-- The whole intervals from `last` to `now` leave less than one interval. -/
theorem elapsedIntervals_spec (last now : Nat) {k : Nat} (hk : k = (now - last) / Config.tickInterval) :
    now < last + k * Config.tickInterval + Config.tickInterval ∧
      (last ≤ now → last + k * Config.tickInterval ≤ now) ∧ (now < last + Config.tickInterval → k = 0) := by
  unfold Config.tickInterval at *
  omega

/-- Catching up by `n` intervals is `n` ticks of the host, but for the time of the last tick. -/
theorem catchUp_eq_run_ticks (n : Nat) {v : State} (hm : v.mode = .running) :
    ∃ u, Host.Core.run Sys2Proof.core n { v with script := List.replicate n .tick ++ v.script } = .next u ∧
      catchUp n v = { u with tLast := v.tLast + n * Config.tickInterval } ∧
      u.DT.toNat = v.DT.toNat - n ∧ u.ST.toNat = v.ST.toNat - n := by
  obtain ⟨dt, st, hcatch, hDT, hST⟩ := catchUp_eq n v
  obtain ⟨dt', st', hrun, hDT', hST'⟩ :=
    run_ticks n (s := { v with script := List.replicate n .tick ++ v.script }) hm rfl
  obtain rfl : dt = dt' := BitVec.eq_of_toNat_eq (hDT.trans hDT'.symm)
  obtain rfl : st = st' := BitVec.eq_of_toNat_eq (hST.trans hST'.symm)
  exact ⟨_, hrun, hcatch, hDT, hST⟩

/-- Settles O52: the whole intervals since the last tick are as many ticks, and leave less than one interval. -/
theorem timebaseTicksOncePerInterval : Obligations.TimebaseTicksOncePerInterval := by
  refine fun s v now h => ⟨fun hm => ?_, fun hm => h.step_eq_of_clock_not_running hm⟩
  obtain ⟨u, hrun, hcatch, hDT, hST⟩ :=
    catchUp_eq_run_ticks ((now - v.tLast) / Config.tickInterval) (h.mode_eq.trans hm)
  have hstep := h.step_eq_catchUp hm
  rw [hcatch] at hstep
  obtain ⟨_, _, rfl⟩ := h.eq
  obtain ⟨hless, hle, hzero⟩ := elapsedIntervals_spec s.tLast now rfl
  exact ⟨_, _, u, hstep, rfl, hless, hle, hzero, hrun, rfl, hDT, hST⟩

end Sys2Proof.Machine
end

section
/-! SUPPORT. Program load and reset (70_reset_and_hazards.md rules R119 to R122). -/

namespace Sys2Proof.Machine

/-! ### Reset (rules R121 and R122) -/

/-- Settles O13: the reset values, and the fields a reset leaves to the host and to memory. -/
theorem resetSetsTheInitialState : Obligations.ResetSetsTheInitialState := by
  intro s u now h
  have hstep := h.step_eq_reset
  have hvalues := resetWith_hasResetValues now u
  obtain ⟨_, _, rfl⟩ := h.eq
  exact ⟨_, hstep, hvalues, fun _ => rfl, rfl, rfl, rfl, rfl, rfl, rfl⟩

/-- Settles O14: a reset of a state that has just been reset sets the time alone. -/
theorem resetIsIdempotent : Obligations.ResetIsIdempotent := by
  refine fun s u now h => ⟨_, h.step_eq_reset, resetWith_hasResetValues now u, fun now' v hv => ?_⟩
  rw [hv.step_eq_reset]
  obtain ⟨_, _, rfl⟩ := hv.eq
  rfl

/-! ### Load (rules R119 and R120) -/

theorem length_font : Config.font.length = 80 := rfl

/-- No byte of the font lies outside the 80 of it. -/
theorem getD_font_of_le {a : Nat} (h : 80 ≤ a) : Config.font.getD a 0 = 0 :=
  List.getD_eq_default _ _ h

/-- The memory that power-on fills with zeros, before the font. -/
def zeroedMemory : Memory := memWriteBlock [] 0 (List.replicate Config.memSize 0)

theorem zeros_fit : 0 + (List.replicate Config.memSize (0 : Byte)).length ≤ Config.memSize := by simp

theorem wf_zeroedMemory : Memory.wf zeroedMemory = true := wf_memWriteBlock rfl _ zeros_fit

theorem memRead_zeroedMemory {a : Nat} (ha : a < Config.memSize) : memRead zeroedMemory a = 0 := by
  have hzero := memRead_memWriteBlock_inside (m := []) rfl zeros_fit (k := a) (by simpa using ha)
  rwa [Nat.zero_add, List.getD_replicate _ ha] at hzero

/-- What power-on lists: nothing, for zeros with the font over them are what every address reads as unlisted. -/
theorem powerOnMemory_eq_nil : powerOnMemory Config.params = [] := by
  have hfont : 0 + Config.font.length ≤ Config.memSize := by decide
  have hmem : powerOnMemory Config.params = memWriteBlock zeroedMemory 0 Config.font := rfl
  have hwf : Memory.wf (memWriteBlock zeroedMemory 0 Config.font) = true := wf_memWriteBlock wf_zeroedMemory _ hfont
  rw [hmem]
  refine eq_of_wfFrom_of_memRead_eq (lo := 0) hwf rfl fun a ha => ?_
  have hnil : memRead [] a = Config.font.getD a 0 := initByte_eq a
  rw [hnil]
  by_cases hin : a < Config.font.length
  · have hfontbyte := memRead_memWriteBlock_inside wf_zeroedMemory hfont hin
    rwa [Nat.zero_add] at hfontbyte
  · have hge : 80 ≤ a := Nat.not_lt.mp hin
    rw [memRead_memWriteBlock_outside wf_zeroedMemory hfont (by rw [length_font]; omega), memRead_zeroedMemory ha,
      getD_font_of_le hge]

theorem image_fits {image : List Byte} (h : image.length ≤ 3584) : 0x200 + image.length ≤ Config.memSize :=
  Nat.add_le_add_left h 0x200

theorem powerOn_eq_loadError {image : List Byte} (now : Nat) (h : image.length > 3584) :
    powerOn now image = .fault (.loadError image.length) :=
  if_pos h

/-- The state a load that fits gives. -/
def loadedState (now : Nat) (image : List Byte) : State :=
  resetWith Config.params now (State.reset.setMem (memWriteBlock [] 0x200 image))

theorem powerOn_eq_next {image : List Byte} (now : Nat) (h : image.length ≤ 3584) :
    powerOn now image = .next (loadedState now image) := by
  have hfits : ¬ image.length > Config.memSize - Config.params.loadBase.toNat := Nat.not_lt.mpr h
  rw [powerOn, powerOnWith, if_neg hfits, powerOnMemory_eq_nil]
  rfl

/-- Settles O16: the empty image writes nothing over the memory of power-on. -/
theorem resetStateIsEmptyPowerOn : Obligations.ResetStateIsEmptyPowerOn :=
  powerOn_eq_next 0 (image := []) (Nat.zero_le _)

/-- Every byte of a loaded state: the font is below the image, and zeros are around it. -/
theorem readByte_loadedState {image : List Byte} (now a : Nat) (h : image.length ≤ 3584) :
    (loadedState now image).readByte a =
      if a < 80 then Config.font.getD a 0
      else if 0x200 ≤ a ∧ a < 0x200 + image.length then image.getD (a - 0x200) 0
      else 0 := by
  have hread : (loadedState now image).readByte a =
      if 0x200 ≤ a ∧ a < 0x200 + image.length then image.getD (a - 0x200) 0 else initByte a :=
    memRead_memWriteBlock rfl image (image_fits h) a
  rw [hread, initByte_eq]
  by_cases hfont : a < 80
  · rw [if_pos hfont, if_neg (by omega)]
  · rw [if_neg hfont, getD_font_of_le (Nat.not_lt.mp hfont)]

/-- Settles O15: the load is a reset over the memory of power-on with the image written to it. -/
theorem loadBuildsTheFirstState : Obligations.LoadBuildsTheFirstState := by
  refine fun now image => ⟨powerOn_eq_loadError now, fun h => ?_⟩
  exact ⟨_, powerOn_eq_next now h, resetWith_hasResetValues now _, wf_memWriteBlock rfl image (image_fits h),
    fun a _ => readByte_loadedState now a h⟩

/-- Settles O19: a load that succeeds writes an image that fits over the state at reset, and resets it. -/
theorem invariantHoldsAfterLoad : Obligations.InvariantHoldsAfterLoad := by
  intro now image t hload
  by_cases h : image.length ≤ 3584
  · have hfits : 0x200 + image.length ≤ Config.memSize := Nat.add_le_add_left h 0x200
    rw [powerOn_eq_next now h] at hload
    cases hload
    exact (invariantHoldsAtReset.setMem_memWriteBlock (image_fits h)).resetWith now
  · rw [powerOn_eq_loadError now (Nat.not_le.mp h)] at hload
    cases hload

end Sys2Proof.Machine
end
